-- ==== Sys2Proof/Word.lean ====
section
/-! DEFINITION. The word types of the machine (00_scope.md R7, R8; 10_state.md R20). Every quantity is unsigned. -/

namespace Sys2Proof

/-- A memory cell, a V register or a timer: 8 bits (R20). -/
abbrev Byte := BitVec 8

/-- An instruction word, `I`, `pc` or a stack entry: 16 bits (R20, R70). -/
abbrev Word := BitVec 16

/-- The name of a V register: a 4-bit field, so every value names a register (R21). -/
abbrev Reg := BitVec 4

/-- The 12-bit immediate `nnn` (R72). -/
abbrev Imm12 := BitVec 12

/-- The framebuffer: 32 rows of 64 one-bit cells, column `c` of a row being its bit `c` (R30; DESIGN CHOICE: the
shape, log 21). Cell `i = row * 64 + col` is read through `Machine.Framebuffer.cell`. -/
abbrev Framebuffer := Vector (BitVec 64) 32

/-- The key vector: 16 booleans, `true` = pressed (R31). -/
abbrev KeyVector := Vector Bool 16

/-- VF, the register that doubles as the flag (R22). -/
abbrev VF : Reg := 0xF#4

/-- V0, the first register of a block and the offset of `JP_V0` (R142, R170). -/
abbrev V0 : Reg := 0x0#4

end Sys2Proof
end

