-- ==== Sys2Proof/Machine/Flags.lean ====
section
/-! DEFINITION. The values written to VF (10_state.md R36), each computed on naturals (00_scope.md R8). -/

namespace Sys2Proof.Machine

/-- A flag value: 1 or 0 (R36). -/
def flagByte (b : Bool) : Byte := if b then 1 else 0

/-- 8xy4: carry out of 8 bits (R125). -/
def carryFlag (a b : Byte) : Byte := flagByte (decide (a.toNat + b.toNat > 255))

/-- 8xy5 and, with the operands exchanged, 8xy7: not-borrow with the STRICT comparison (R126, R128). -/
def notBorrowFlag (a b : Byte) : Byte := flagByte (decide (a.toNat > b.toNat))

/-- 8xy6: the bit shifted out to the right, old bit 0 (R127). -/
def shiftRightFlag (a : Byte) : Byte := a &&& 1

/-- 8xyE: the bit shifted out to the left, old bit 7 (R129). -/
def shiftLeftFlag (a : Byte) : Byte := (a >>> 7) &&& 1

/-- Fx1E: the natural sum exceeds 0xFFF (R167). -/
def indexRangeFlag (i : Word) (v : Byte) : Byte := flagByte (decide (i.toNat + v.toNat > 0xFFF))

/-- Dxyn: some cell went from lit to unlit (R144). -/
def collisionFlag (hit : Bool) : Byte := flagByte hit

end Sys2Proof.Machine
end

