-- ==== Sys2Proof/Syntax.lean ====
section
/-! DEFINITION. The 34 instructions, one constructor per row of the opcode table (30_encoding.md R76). Operand widths
are the field widths of R71, so every term is an instruction some word encodes. Bits a routine ignores (R75) are kept
as an operand `ign`: a word and its instruction then determine each other (DESIGN CHOICE, log 13). -/

namespace Sys2Proof

inductive Instr where
  /-- 00E0, bits 11:4 ignored (R100). -/
  | cls (ign : BitVec 8)
  /-- 00EE, bits 11:4 ignored (R101). -/
  | ret (ign : BitVec 8)
  /-- 1nnn (R102). -/
  | jp (nnn : Imm12)
  /-- 2nnn (R103). -/
  | call (nnn : Imm12)
  /-- 3xkk (R104). -/
  | seImm (x : Reg) (kk : Byte)
  /-- 4xkk (R105). -/
  | sneImm (x : Reg) (kk : Byte)
  /-- 5xy0, bits 3:0 ignored (R106). -/
  | seReg (x y : Reg) (ign : BitVec 4)
  /-- 6xkk (R107). -/
  | ldImm (x : Reg) (kk : Byte)
  /-- 7xkk (R108). -/
  | addImm (x : Reg) (kk : Byte)
  /-- 8xy0 (R121). -/
  | ldReg (x y : Reg)
  /-- 8xy1 (R122). -/
  | or (x y : Reg)
  /-- 8xy2 (R123). -/
  | and (x y : Reg)
  /-- 8xy3 (R124). -/
  | xor (x y : Reg)
  /-- 8xy4 (R125). -/
  | addReg (x y : Reg)
  /-- 8xy5 (R126). -/
  | sub (x y : Reg)
  /-- 8xy6; `y` is encoded and ignored (R127). -/
  | shr (x y : Reg)
  /-- 8xy7 (R128). -/
  | subn (x y : Reg)
  /-- 8xyE; `y` is encoded and ignored (R129). -/
  | shl (x y : Reg)
  /-- 9xy0, bits 3:0 ignored (R140). -/
  | sneReg (x y : Reg) (ign : BitVec 4)
  /-- Annn (R141). -/
  | ldI (nnn : Imm12)
  /-- Bnnn (R142). -/
  | jpV0 (nnn : Imm12)
  /-- Cxkk (R143). -/
  | rnd (x : Reg) (kk : Byte)
  /-- Dxyn (R144). -/
  | drw (x y : Reg) (n : BitVec 4)
  /-- Ex9E (R161). -/
  | skp (x : Reg)
  /-- ExA1 (R162). -/
  | sknp (x : Reg)
  /-- Fx07 (R163). -/
  | ldVxDt (x : Reg)
  /-- Fx0A (R164). -/
  | ldVxK (x : Reg)
  /-- Fx15 (R165). -/
  | ldDtVx (x : Reg)
  /-- Fx18 (R166). -/
  | ldStVx (x : Reg)
  /-- Fx1E (R167). -/
  | addIVx (x : Reg)
  /-- Fx29 (R168). -/
  | ldFVx (x : Reg)
  /-- Fx33 (R169). -/
  | ldBVx (x : Reg)
  /-- Fx55 (R170). -/
  | ldMemVx (x : Reg)
  /-- Fx65 (R171). -/
  | ldVxMem (x : Reg)
  deriving DecidableEq, Repr

end Sys2Proof
end

