-- ==== Sys2Proof/Config.lean ====
section
/-! DEFINITION. What an implementation fixes (the parameters of 00_scope.md R6) and the machine's one free value, the
random byte (10_state.md R33). -/

namespace Sys2Proof

/-- `glyph_write_policy` (R6, R52, D13): whether a store into the glyph table is fatal or takes effect. -/
inductive GlyphPolicy where
  /-- A store into 0x000 to 0x04F raises GlyphWrite: the spec's default. -/
  | fatal
  /-- A store into 0x000 to 0x04F takes effect like any other. -/
  | write
  deriving DecidableEq, Repr

/-- The OPEN parameters of the spec (R6, R39). The Reset transaction takes them as an argument, so a statement about
reset holds for every value of them. -/
structure Params where
  /-- `glyph_table`: the 80 bytes at 0x000 (R59, D4). -/
  glyphTable : Vector Byte 80
  /-- `init_low_ram`: the 432 bytes at 0x050 (R58, D5). -/
  initLowRam : Vector Byte 432
  /-- `reset_V` (D6). -/
  resetV : Vector Byte 16
  /-- `reset_I` (D7). -/
  resetI : Word
  /-- `reset_DT` (D8). -/
  resetDT : Byte
  /-- `reset_ST` (D8). -/
  resetST : Byte
  /-- `reset_fb` (D9). -/
  resetFb : Framebuffer
  /-- `reset_redraw` (D9). -/
  resetRedraw : Bool
  /-- `reset_stack` (D10). -/
  resetStack : Vector Word 16
  /-- `reset_keys`: the key vector before the first SetKeys (D23). -/
  resetKeys : KeyVector
  /-- `glyph_write_policy` (D13). -/
  glyphWritePolicy : GlyphPolicy
  deriving DecidableEq, Repr

/-- FREE VALUE (R33, R143, D22; log 3): the byte of the k-th random draw. It has no body, so nothing can be proved
of its values and a statement that mentions it holds for every sequence of draws. -/
opaque Config.randomByte : Nat → Byte

end Sys2Proof
end

