-- ==== Sys2Proof/Machine/Defaults.lean ====
section
/-! DEFINITION. The values the model gives the OPEN parameters of 10_state.md R39 for its plain reset state, and what a
byte of memory reads as when memory does not list it. -/

namespace Sys2Proof.Machine

/-- The conventional glyphs of digits 0 to 7 (R59, default of `glyph_table`; PRESUMED, log 11). -/
def glyphsLow : List Byte :=
  [0xF0, 0x90, 0x90, 0x90, 0xF0,  0x20, 0x60, 0x20, 0x20, 0x70,
   0xF0, 0x10, 0xF0, 0x80, 0xF0,  0xF0, 0x10, 0xF0, 0x10, 0xF0,
   0x90, 0x90, 0xF0, 0x10, 0x10,  0xF0, 0x80, 0xF0, 0x10, 0xF0,
   0xF0, 0x80, 0xF0, 0x90, 0xF0,  0xF0, 0x10, 0x20, 0x40, 0x40]

/-- The conventional glyphs of digits 8 to F (R59, default of `glyph_table`; PRESUMED, log 11). -/
def glyphsHigh : List Byte :=
  [0xF0, 0x90, 0xF0, 0x90, 0xF0,  0xF0, 0x90, 0xF0, 0x10, 0xF0,
   0xF0, 0x90, 0xF0, 0x90, 0x90,  0xE0, 0x90, 0xE0, 0x90, 0xE0,
   0xF0, 0x80, 0x80, 0x80, 0xF0,  0xE0, 0x90, 0x90, 0x90, 0xE0,
   0xF0, 0x80, 0xF0, 0x80, 0xF0,  0xF0, 0x80, 0xF0, 0x80, 0x80]

/-- The conventional font, 80 bytes (R59). -/
def conventionalFont : List Byte := glyphsLow ++ glyphsHigh

/-- What an address reads as when memory does not list it: the default glyph table below 0x050 (R59; PRESUMED,
log 11), 0 in 0x050 to 0x1FF (DESIGN CHOICE, log 12), and 0 from 0x200 (the spec: bytes above the image are 0, R39). -/
def unlistedByte (a : Nat) : Byte := conventionalFont.getD a 0

/-- The values of the OPEN parameters behind `State.reset`: zero and unlit (DESIGN CHOICE, logs 5 to 10, 12), the
conventional font (PRESUMED, log 11), policy Fatal (the spec's default, D13). -/
def defaultParams : Params where
  glyphTable := Vector.ofFn fun a : Fin 80 => conventionalFont.getD a.val 0
  initLowRam := Vector.replicate 432 0
  resetV := Vector.replicate 16 0
  resetI := 0
  resetDT := 0
  resetST := 0
  resetFb := Vector.replicate 32 0
  resetRedraw := false
  resetStack := Vector.replicate 16 0
  resetKeys := Vector.replicate 16 false
  glyphWritePolicy := .fatal

end Sys2Proof.Machine
end

