-- ==== Sys2Proof/Machine/State.lean ====
section
/-! DEFINITION. The state record of 10_state.md R20 as plain data, the ways a step can end, and the state after
reset. -/

namespace Sys2Proof.Machine

/-- The record of a fatal condition, `(code, info)` (60_exceptions.md R200); the info of each cause is R208's. -/
inductive Fatal where
  /-- Code 1: the fetch found `pc + 1 ≥ 4096` (R201). -/
  | fetchOutOfRange (pc : Word)
  /-- Code 2: 00EE with `sp = 0` (R203). -/
  | stackUnderflow (pc word : Word)
  /-- Code 3: 2nnn with `sp = 16` (R202). -/
  | stackOverflow (pc word : Word)
  /-- Code 4: a data access at 4096 or more; the lowest such address (R204). -/
  | memoryOutOfRange (pc word : Word) (addr : Nat)
  /-- Code 5: a store into the glyph table under policy Fatal; the lowest such address (R205). -/
  | glyphWrite (pc word : Word) (addr : Nat)
  /-- Code 6: Ex9E or ExA1 with `V[x] ≥ 16`; the value (R206). -/
  | keyIndexOutOfRange (pc word : Word) (value : Byte)
  deriving DecidableEq, Repr

/-- The code numbers of R208. -/
def Fatal.code : Fatal → Nat
  | .fetchOutOfRange _ => 1
  | .stackUnderflow _ _ => 2
  | .stackOverflow _ _ => 3
  | .memoryOutOfRange _ _ _ => 4
  | .glyphWrite _ _ _ => 5
  | .keyIndexOutOfRange _ _ _ => 6

/-- Memory: the listed cells, addresses strictly rising (R50). An address that is not listed reads as
`unlistedByte`. -/
abbrev Memory := List Host.Cell

/-- Every listed address exists (below 4096, R50) and differs from what it would read as unlisted. -/
def Memory.cellOk (c : Host.Cell) : Bool := decide (c.1 < 4096) && c.2 != unlistedByte c.1

/-- The canonical form: good cells only, addresses strictly rising. -/
def Memory.wf : Memory → Bool
  | [] => true
  | [c] => Memory.cellOk c
  | c :: d :: m => Memory.cellOk c && decide (c.1 < d.1) && Memory.wf (d :: m)

/-- The state record of R20, with two fields of the model's own (`draws`, `glyphPolicy`). -/
structure State where
  /-- 4096 bytes of memory (R50). -/
  mem : Memory
  /-- V0 to VF (R21). -/
  V : Vector Byte 16
  /-- The index register (R24). -/
  I : Word
  /-- The program counter (R25). -/
  pc : Word
  /-- The 16 return addresses (R27). -/
  stack : Vector Word 16
  /-- How many entries are stored, 0 to 16 (R28). -/
  sp : Fin 17
  /-- The delay timer (R29). -/
  DT : Byte
  /-- The sound timer (R29). -/
  ST : Byte
  /-- The framebuffer (R30). -/
  fb : Framebuffer
  /-- The keys held (R31). -/
  keys : KeyVector
  /-- redraw_pending (R32). -/
  redraw : Bool
  /-- The most recent undefined word (R34). -/
  lastUndefined : Option Word
  /-- The fatal record, once there is one (R35). -/
  halted : Option Fatal
  /-- The model's own: the number of random bytes drawn so far, which makes the next draw fresh (R33; log 3). -/
  draws : Nat
  /-- The model's own: the parameter `glyph_write_policy` of this machine (R6, R52; log 4). -/
  glyphPolicy : GlyphPolicy
  deriving DecidableEq, Repr

/-- Reasons a step of the model stops without a next state: NONE. Every condition the spec calls fatal has an effect
the spec describes (`halted` is set, R200), so the model takes it as a next state, and no step faults. Nobody raises a
fault; that is safe (log 1). -/
inductive Fault where
  deriving DecidableEq, Repr

/-- Reasons `exec` gives an instruction no meaning. -/
inductive Refusal where
  /-- Raised by no arm: every instruction of the table has its meaning. Were an arm refused so, the model would stop
  where the hardware goes on, which is safe. -/
  | notModelled (mnemonic : String)
  deriving DecidableEq, Repr

/-- What executing an instruction answers. -/
abbrev Result := Host.Outcome State Fault Refusal

/-- The machine after reset (R39, R230) with an empty image: `pc = 0x200`, `sp = 0`, `last_undefined` and `halted`
none by the spec; every OPEN parameter at its value in `defaultParams` (logs 3 to 12). -/
def State.reset : State where
  mem := []
  V := defaultParams.resetV
  I := defaultParams.resetI
  pc := 0x200
  stack := defaultParams.resetStack
  sp := 0
  DT := defaultParams.resetDT
  ST := defaultParams.resetST
  fb := defaultParams.resetFb
  keys := defaultParams.resetKeys
  redraw := defaultParams.resetRedraw
  lastUndefined := none
  halted := none
  draws := 0
  glyphPolicy := defaultParams.glyphWritePolicy

end Sys2Proof.Machine
end

