-- ==== Sys2Proof/Machine/Ops.lean ====
section
/-! DEFINITION. The named operations over memory, registers, stack and framebuffer, the checks an access makes, raising
a fatal condition (the machine's only exception, 60_exceptions.md R200, R218), the fetch and the undefined handler. -/

namespace Sys2Proof.Machine

/-! ### Memory (20_memory.md R50 to R53) -/

/-- The byte at address `a` (R50). -/
def Memory.read : Memory → Nat → Byte
  | [], a => unlistedByte a
  | c :: m, a => if a = c.1 then c.2 else Memory.read m a

/-- List the cell `(a, v)` in address order, in place of any cell at `a`. -/
def Memory.insert (a : Nat) (v : Byte) : Memory → Memory
  | [] => [(a, v)]
  | c :: m =>
    if a < c.1 then (a, v) :: c :: m
    else if a = c.1 then (a, v) :: m
    else c :: Memory.insert a v m

/-- List no cell at `a`. -/
def Memory.erase (a : Nat) : Memory → Memory
  | [] => []
  | c :: m => if a = c.1 then Memory.erase a m else c :: Memory.erase a m

/-- `mem[a] <- v` (R52), keeping the canonical form. -/
def Memory.write (m : Memory) (a : Nat) (v : Byte) : Memory :=
  if v = unlistedByte a then Memory.erase a m else Memory.insert a v m

/-- The bytes at `a .. a+n-1`, lowest address first (R56). -/
def Memory.readBlock (m : Memory) (a : Nat) : Nat → List Byte
  | 0 => []
  | n + 1 => m.read a :: Memory.readBlock m (a + 1) n

/-- Write bytes from address `a` up (R56). -/
def Memory.writeBlock (m : Memory) (a : Nat) : List Byte → Memory
  | [] => m
  | v :: vs => Memory.writeBlock (m.write a v) (a + 1) vs

/-- The canonical memory that reads as `f` at the `n` addresses from `a` up and as unlisted above them. -/
def Memory.build (f : Nat → Byte) (a : Nat) : Nat → Memory
  | 0 => []
  | n + 1 =>
    if f a = unlistedByte a then Memory.build f (a + 1) n
    else (a, f a) :: Memory.build f (a + 1) n

/-- Why an access fails, with the failing address. -/
inductive AccessError where
  /-- MemoryOutOfRange (R51, R204). -/
  | outOfRange (a : Nat)
  /-- GlyphWrite (R52, R205). -/
  | glyph (a : Nat)
  deriving DecidableEq, Repr

/-- The check of `MemRead(a, 1)`: addresses from 4096 up do not exist (R51). -/
def checkRead (a : Nat) : Option AccessError :=
  if 4096 ≤ a then some (.outOfRange a) else none

/-- The check of `MemWrite(a, 1, v)`: the range, then the glyph table under policy Fatal (R52). -/
def checkWrite (policy : GlyphPolicy) (a : Nat) : Option AccessError :=
  if 4096 ≤ a then some (.outOfRange a)
  else if a ≤ 0x04F ∧ policy = .fatal then some (.glyph a)
  else none

/-- Every address `a .. a+n-1` is checked before any access; the lowest failing one is reported (R53). -/
def checkBlock (check : Nat → Option AccessError) (a : Nat) : Nat → Option AccessError
  | 0 => none
  | n + 1 =>
    match check a with
    | some e => some e
    | none => checkBlock check (a + 1) n

/-! ### Registers and the program counter -/

/-- `V[r]` (R21). -/
def State.readV (s : State) (r : Reg) : Byte := s.V[r.toNat]'r.isLt

/-- `V[r] <- v` (R21). -/
def State.writeV (s : State) (r : Reg) (v : Byte) : State := { s with V := s.V.set r.toNat v r.isLt }

/-- `pc <- (pc + 2) mod 2^16`: an instruction that does not redirect control (R26). -/
def State.advance (s : State) : State := { s with pc := s.pc + 2 }

/-- `pc + 4` if the condition holds, else `pc + 2` (R26). -/
def State.skipIf (s : State) (c : Bool) : State := { s with pc := s.pc + (if c then 4 else 2) }

/-- The common sequence of the ALU group (41_alu_8xy.md R120): both operands are read, then the flag is written to VF
where there is one, then the result to `V[x]`, then `pc + 2`. -/
def State.alu8 (s : State) (op : Byte → Byte → Byte × Option Byte) (x y : Reg) : State :=
  let r := op (s.readV x) (s.readV y)
  let s1 := match r.2 with
    | some f => s.writeV VF f
    | none => s
  (s1.writeV x r.1).advance

/-- A draw of the random source: the next free byte, and the state that has drawn it (R33). -/
def State.drawByte (s : State) : Byte × State :=
  (Config.randomByte s.draws, { s with draws := s.draws + 1 })

/-! ### The stack (10_state.md R27, R28) -/

/-- Push: `stack[sp] <- a`, then `sp + 1`; none where `sp = 16` (R28). -/
def State.push (s : State) (a : Word) : Option State :=
  if h : s.sp.val < 16 then
    some { s with stack := s.stack.set s.sp.val a h, sp := ⟨s.sp.val + 1, by omega⟩ }
  else none

/-- Pop: `sp - 1`, then `stack[sp]`; none where `sp = 0` (R28). The entry keeps its value (R101). -/
def State.pop (s : State) : Option (Word × State) :=
  if h : 0 < s.sp.val then
    some (s.stack[s.sp.val - 1]'(by omega), { s with sp := ⟨s.sp.val - 1, by omega⟩ })
  else none

/-! ### The framebuffer (10_state.md R30; 42_skip_index_jump_random_draw.md R144) -/

/-- Whether cell `i = row * 64 + col` is lit (R30). -/
def Framebuffer.cell (fb : Framebuffer) (i : Nat) : Bool :=
  if h : i / 64 < 32 then (fb[i / 64]).getLsbD (i % 64) else false

/-- `fb[i] <- fb[i] XOR 1` (R144). -/
def Framebuffer.toggle (fb : Framebuffer) (i : Nat) : Framebuffer :=
  if h : i / 64 < 32 then fb.set (i / 64) (fb[i / 64] ^^^ BitVec.twoPow 64 (i % 64)) else fb

/-- Every cell unlit (R100). -/
def Framebuffer.blank : Framebuffer := Vector.replicate 32 0

/-- The cell of sprite row `r`, column `c` with origin `(ox, oy)`: both axes wrap per pixel (R144). -/
def pixelIndex (ox oy r c : Nat) : Nat := ((oy + r) % 32) * 64 + (ox + c) % 64

/-- A framebuffer being drawn on, and whether a lit cell has gone unlit so far (R144). -/
abbrev Canvas := Framebuffer × Bool

/-- One set sprite bit: the collision is noted, then the cell is toggled (R144). -/
def drawPixel (p : Canvas) (i : Nat) : Canvas := (Framebuffer.toggle p.1 i, p.2 || Framebuffer.cell p.1 i)

/-- Columns `c, c+1, ...` of one sprite row, most significant bit first: column `c` is bit `7 - c` (R144). -/
def drawColumns (ox oy r : Nat) (b : Byte) : List Nat → Canvas → Canvas
  | [], p => p
  | c :: cs, p =>
    drawColumns ox oy r b cs (if b.getLsbD (7 - c) then drawPixel p (pixelIndex ox oy r c) else p)

/-- The eight columns of a sprite byte. -/
def spriteColumns : List Nat := [0, 1, 2, 3, 4, 5, 6, 7]

/-- Sprite rows `r, r+1, ...`, one byte each, top row first (R144). -/
def drawRows (ox oy : Nat) : Nat → List Byte → Canvas → Canvas
  | _, [], p => p
  | r, b :: bs, p => drawRows ox oy (r + 1) bs (drawColumns ox oy r b spriteColumns p)

/-! ### Fatal conditions (60_exceptions.md R200) -/

/-- `raise Fatal(code, info)` on the state at the START of the step: `halted` is set and nothing else changes (R200).
A meaning calls it on the state it was given, so every write of the step is discarded. -/
def State.raise (s : State) (f : Fatal) : State := { s with halted := some f }

/-- The fatal record of a failed access by the instruction word `w` at `pc` (R204, R205, R208). -/
def AccessError.toFatal (pc w : Word) : AccessError → Fatal
  | .outOfRange a => .memoryOutOfRange pc w a
  | .glyph a => .glyphWrite pc w a

/-- Ends a step whose accesses have been checked: a failed check raises on the state before the step (`s`), a passed one
goes on to `t` (R53). -/
def State.guarded (s : State) (e : Option AccessError) (w : Word) (t : State) : Result :=
  match e with
  | some e => .next (s.raise (e.toFatal s.pc w))
  | none => .next t

/-! ### Fetch and the undefined handler -/

/-- The fetch: the word at `pc`, or none where `pc + 1 ≥ 4096` (30_encoding.md R70). -/
def State.fetch (s : State) : Option Word :=
  if s.pc.toNat + 1 < 4096 then
    some (wordOfBytes (s.mem.read s.pc.toNat) (s.mem.read (s.pc.toNat + 1)))
  else none

/-- A step whose fetch fails raises FetchOutOfRange with `pc` (R70, R201). -/
def State.fetchFails (s : State) : Result := .next (s.raise (.fetchOutOfRange s.pc))

/-- The undefined handler: record the word, `pc + 2` (30_encoding.md R78). -/
def State.undefinedStep (s : State) (w : Word) : Result :=
  .next ({ s with lastUndefined := some w }).advance

end Sys2Proof.Machine
end

