-- ==== Sys2Proof/Machine/Operands.lean ====
section
/-! DEFINITION. Operand assembly (30_encoding.md R72) and the values the instructions form from operands. -/

namespace Sys2Proof.Machine

/-- `zext_16(nnn)` (R8, R72). -/
def zext16 (nnn : Imm12) : Word := nnn.setWidth 16

/-- `nnn + V[0]`: the target of `JP_V0`, not masked to 12 bits (R142). -/
def State.indexedTarget (s : State) (nnn : Imm12) : Word := zext16 nnn + (s.readV V0).setWidth 16

/-- The origin column `V[x] mod 64` and row `V[y] mod 32`, read before VF is written (R144, D15; log 17). -/
def State.spriteOrigin (s : State) (x y : Reg) : Nat × Nat :=
  ((s.readV x).toNat % 64, (s.readV y).toNat % 32)

/-- `V[x] * 5` on the full byte (R168). -/
def glyphAddress (v : Byte) : Word := BitVec.ofNat 16 (v.toNat * 5)

/-- The decimal digits of a byte: hundreds, tens, ones (R169). -/
def bcdDigits (v : Byte) : List Byte :=
  [BitVec.ofNat 8 (v.toNat / 100), BitVec.ofNat 8 (v.toNat / 10 % 10), BitVec.ofNat 8 (v.toNat % 10)]

/-- How many registers the block `V[0..x]` has (R170, R171). -/
def blockLength (x : Reg) : Nat := x.toNat + 1

/-- The bytes of `V[0..x]`, V0 first (R170). -/
def State.blockBytes (s : State) (x : Reg) : List Byte := s.V.toList.take (blockLength x)

/-- `for k in 0..n-1: V[k] <- MemRead(a + k, 1)` (R171). -/
def loadRegs (m : Memory) (a : Nat) (v : Vector Byte 16) : Nat → Vector Byte 16
  | 0 => v
  | n + 1 => (loadRegs m a v n).setIfInBounds n (m.read (a + n))

/-- The register file after `V[k] <- MemRead(I + k, 1)` for `k` in `0..x` (R171). -/
def State.loadBlock (s : State) (x : Reg) : Vector Byte 16 := loadRegs s.mem s.I.toNat s.V (blockLength x)

/-- `(I + x + 1) mod 2^16`: the index after a block transfer (R170, R171; for `Fx65` D16, log 18). -/
def State.indexAfterBlock (s : State) (x : Reg) : Word := s.I + BitVec.ofNat 16 (blockLength x)

/-- `keys[v]`, none where `v ≥ 16` (R160). -/
def State.keyAt (s : State) (v : Byte) : Option Bool :=
  if h : v.toNat < 16 then some s.keys[v.toNat] else none

/-- The least pressed key among `k, k+1, ...` (R164). -/
def leastKeyFrom : Nat → List Bool → Option Nat
  | _, [] => none
  | k, true :: _ => some k
  | k, false :: ks => leastKeyFrom (k + 1) ks

/-- The least pressed key, none where no key is pressed (R164). -/
def State.leastKey (s : State) : Option Nat := leastKeyFrom 0 s.keys.toList

end Sys2Proof.Machine
end

