-- ==== Sys2Proof/Machine/Alu.lean ====
section
/-! DEFINITION. Family 8: the register-register ALU group (41_alu_8xy.md R120 to R129), each over the common sequence
`State.alu8`. -/

namespace Sys2Proof.Machine

/-- `8xy0`: copy, no flag (R121). -/
def execLdReg (x y : Reg) (s : State) : Result := .next (s.alu8 (fun _ b => (b, none)) x y)

/-- `8xy1`: no flag (R122, C3). -/
def execOr (x y : Reg) (s : State) : Result := .next (s.alu8 (fun a b => (a ||| b, none)) x y)

/-- `8xy2`: no flag (R123, C3). -/
def execAnd (x y : Reg) (s : State) : Result := .next (s.alu8 (fun a b => (a &&& b, none)) x y)

/-- `8xy3`: no flag (R124, C3). -/
def execXor (x y : Reg) (s : State) : Result := .next (s.alu8 (fun a b => (a ^^^ b, none)) x y)

/-- `8xy4` (R125). -/
def execAddReg (x y : Reg) (s : State) : Result :=
  .next (s.alu8 (fun a b => (a + b, some (carryFlag a b))) x y)

/-- `8xy5` (R126). -/
def execSub (x y : Reg) (s : State) : Result :=
  .next (s.alu8 (fun a b => (a - b, some (notBorrowFlag a b))) x y)

/-- `8xy6` (R127): the second operand is ignored. -/
def execShr (x y : Reg) (s : State) : Result :=
  .next (s.alu8 (fun a _ => (a >>> 1, some (shiftRightFlag a))) x y)

/-- `8xy7` (R128). -/
def execSubn (x y : Reg) (s : State) : Result :=
  .next (s.alu8 (fun a b => (b - a, some (notBorrowFlag b a))) x y)

/-- `8xyE` (R129): the second operand is ignored. -/
def execShl (x y : Reg) (s : State) : Result :=
  .next (s.alu8 (fun a _ => (a <<< 1, some (shiftLeftFlag a))) x y)

end Sys2Proof.Machine
end

