-- ==== Sys2Proof/Machine/Control.lean ====
section
/-! DEFINITION. Families 0 to 7: screen clear, return, jump, call, skips, immediates
(40_control_and_immediate.md R100 to R108). -/

namespace Sys2Proof.Machine

/-- `00E0` (R100). -/
def execCls (_ign : BitVec 8) (s : State) : Result :=
  .next ({ s with fb := Framebuffer.blank, redraw := true }).advance

/-- `00EE` (R101): the popped address is that of the call, so control resumes 2 above it. -/
def execRet (ign : BitVec 8) (s : State) : Result :=
  match s.pop with
  | none => .next (s.raise (.stackUnderflow s.pc (encode (.ret ign))))
  | some (a, t) => .next { t with pc := a + 2 }

/-- `1nnn` (R102). -/
def execJp (nnn : Imm12) (s : State) : Result := .next { s with pc := zext16 nnn }

/-- `2nnn` (R103): the pushed value is the address of the call itself. -/
def execCall (nnn : Imm12) (s : State) : Result :=
  match s.push s.pc with
  | none => .next (s.raise (.stackOverflow s.pc (encode (.call nnn))))
  | some t => .next { t with pc := zext16 nnn }

/-- `3xkk` (R104). -/
def execSeImm (x : Reg) (kk : Byte) (s : State) : Result := .next (s.skipIf (s.readV x == kk))

/-- `4xkk` (R105). -/
def execSneImm (x : Reg) (kk : Byte) (s : State) : Result := .next (s.skipIf (s.readV x != kk))

/-- `5xy0` (R106). -/
def execSeReg (x y : Reg) (_ign : BitVec 4) (s : State) : Result :=
  .next (s.skipIf (s.readV x == s.readV y))

/-- `6xkk` (R107). -/
def execLdImm (x : Reg) (kk : Byte) (s : State) : Result := .next (s.writeV x kk).advance

/-- `7xkk` (R108): wraps modulo 256, VF is not a flag here. -/
def execAddImm (x : Reg) (kk : Byte) (s : State) : Result := .next (s.writeV x (s.readV x + kk)).advance

end Sys2Proof.Machine
end

