-- ==== Sys2Proof/Machine/IndexDraw.lean ====
section
/-! DEFINITION. Families 9 to D: register skip, index load, indexed jump, random, sprite draw
(42_skip_index_jump_random_draw.md R140 to R144). -/

namespace Sys2Proof.Machine

/-- `9xy0` (R140). -/
def execSneReg (x y : Reg) (_ign : BitVec 4) (s : State) : Result :=
  .next (s.skipIf (s.readV x != s.readV y))

/-- `Annn` (R141). -/
def execLdI (nnn : Imm12) (s : State) : Result := .next ({ s with I := zext16 nnn }).advance

/-- `Bnnn` (R142): the offset register is always V0. -/
def execJpV0 (nnn : Imm12) (s : State) : Result := .next { s with pc := s.indexedTarget nnn }

/-- `Cxkk` (R143): one fresh draw per execution. -/
def execRnd (x : Reg) (kk : Byte) (s : State) : Result :=
  .next ((s.drawByte.2).writeV x (kk &&& s.drawByte.1)).advance

/-- The sprite of `Dxyn` drawn on the framebuffer: `n` bytes from `I`, origin from `V[x]`, `V[y]` (R144). -/
def State.drawnSprite (s : State) (x y : Reg) (n : BitVec 4) : Canvas :=
  drawRows (s.spriteOrigin x y).1 (s.spriteOrigin x y).2 0 (s.mem.readBlock s.I.toNat n.toNat) (s.fb, false)

/-- `Dxyn` (R144): every sprite address is checked first; then VF, the framebuffer and `redraw` are written. -/
def execDrw (x y : Reg) (n : BitVec 4) (s : State) : Result :=
  s.guarded (checkBlock checkRead s.I.toNat n.toNat) (encode (.drw x y n))
    (({ s with fb := (s.drawnSprite x y n).1, redraw := true }).writeV VF
      (collisionFlag (s.drawnSprite x y n).2)).advance

end Sys2Proof.Machine
end

