-- ==== Sys2Proof/Machine/KeysTimersMemory.lean ====
section
/-! DEFINITION. Families E and F: key skips, timers, index arithmetic, BCD, register block transfer
(43_keys_and_f_group.md R160 to R171). -/

namespace Sys2Proof.Machine

/-- `Ex9E` (R161); a key index of 16 or more is fatal (R160). -/
def execSkp (x : Reg) (s : State) : Result :=
  match s.keyAt (s.readV x) with
  | none => .next (s.raise (.keyIndexOutOfRange s.pc (encode (.skp x)) (s.readV x)))
  | some pressed => .next (s.skipIf pressed)

/-- `ExA1` (R162); a key index of 16 or more is fatal (R160). -/
def execSknp (x : Reg) (s : State) : Result :=
  match s.keyAt (s.readV x) with
  | none => .next (s.raise (.keyIndexOutOfRange s.pc (encode (.sknp x)) (s.readV x)))
  | some pressed => .next (s.skipIf (!pressed))

/-- `Fx07` (R163). -/
def execLdVxDt (x : Reg) (s : State) : Result := .next (s.writeV x s.DT).advance

/-- `Fx0A` (R164): with no key pressed nothing changes, so the next step executes the same word again. -/
def execLdVxK (x : Reg) (s : State) : Result :=
  match s.leastKey with
  | none => .next s
  | some k => .next (s.writeV x (BitVec.ofNat 8 k)).advance

/-- `Fx15` (R165). -/
def execLdDtVx (x : Reg) (s : State) : Result := .next ({ s with DT := s.readV x }).advance

/-- `Fx18` (R166). -/
def execLdStVx (x : Reg) (s : State) : Result := .next ({ s with ST := s.readV x }).advance

/-- `Fx1E` (R167): the flag first, then `I` adds `V[x]` READ AGAIN, so `x = F` adds the new flag (D17; log 19). -/
def execAddIVx (x : Reg) (s : State) : Result :=
  let t := s.writeV VF (indexRangeFlag s.I (s.readV x))
  .next ({ t with I := t.I + (t.readV x).setWidth 16 }).advance

/-- `Fx29` (R168). -/
def execLdFVx (x : Reg) (s : State) : Result := .next ({ s with I := glyphAddress (s.readV x) }).advance

/-- `Fx33` (R169). -/
def execLdBVx (x : Reg) (s : State) : Result :=
  s.guarded (checkBlock (checkWrite s.glyphPolicy) s.I.toNat 3) (encode (.ldBVx x))
    ({ s with mem := s.mem.writeBlock s.I.toNat (bcdDigits (s.readV x)) }).advance

/-- `Fx55` (R170). -/
def execLdMemVx (x : Reg) (s : State) : Result :=
  s.guarded (checkBlock (checkWrite s.glyphPolicy) s.I.toNat (blockLength x)) (encode (.ldMemVx x))
    ({ s with mem := s.mem.writeBlock s.I.toNat (s.blockBytes x), I := s.indexAfterBlock x }).advance

/-- `Fx65` (R171). -/
def execLdVxMem (x : Reg) (s : State) : Result :=
  s.guarded (checkBlock checkRead s.I.toNat (blockLength x)) (encode (.ldVxMem x))
    ({ s with V := s.loadBlock x, I := s.indexAfterBlock x }).advance

end Sys2Proof.Machine
end

