-- ==== Sys2Proof/Machine/Step.lean ====
section
/-! DEFINITION. The transaction Step (30_encoding.md R81) and the placing of a word where the next step fetches. -/

namespace Sys2Proof.Machine

/-- One step (R81): nothing while halted (R200), else the fetch, the decode and exactly one routine. -/
def step (s : State) : Host.Outcome State Fault Refusal :=
  match s.halted with
  | some _ => .next s
  | none =>
    match s.fetch with
    | none => s.fetchFails
    | some w =>
      match decode w with
      | .ok i => exec i s
      | .error _ => s.undefinedStep w

/-- `s` with the instruction word `w` stored where the next step fetches, high byte at the lower address (R54). A fetch
needs a machine that is not halted and a `pc` with `pc + 1 < 4096`; where `s` has them nothing but the two bytes changes,
else `halted` is cleared and `pc` is the entry point 0x200 (log 16). -/
def State.withFetchWord (s : State) (nbits w : Nat) : State :=
  let p : Word := if s.pc.toNat + 1 < 4096 then s.pc else 0x200
  { s with
    halted := none
    pc := p
    mem := s.mem.writeBlock p.toNat [hiByte (tableWord nbits w), loByte (tableWord nbits w)] }

end Sys2Proof.Machine
end

