-- ==== Sys2Proof/Machine/Transactions.lean ====
section
/-! DEFINITION. The interface of the CORE (60_exceptions.md R220): the five atomic transactions, their outputs, the read
ports, and the schedules a driver may choose (R221). -/

namespace Sys2Proof.Machine

/-! ### Tick, SetKeys, RedrawClear -/

/-- One count toward 0, never below (R210). -/
def countDown (t : Byte) : Byte := if t = 0 then 0 else t - 1

/-- `tick_timers` (R210): nothing while halted, else both timers count down independently. -/
def State.tick (s : State) : State :=
  match s.halted with
  | some _ => s
  | none => { s with DT := countDown s.DT, ST := countDown s.ST }

/-- `SetKeys(k)` (R216): acts while halted too (R200, C13). -/
def State.setKeys (s : State) (k : KeyVector) : State := { s with keys := k }

/-- `RedrawClear` (R215): acts while halted too (R200, C13). -/
def State.redrawClear (s : State) : State := { s with redraw := false }

/-! ### Reset (70_reset_and_hazards.md R230) -/

/-- The byte of address `a` after reset: the glyph table, low RAM, the image from 0x200, zeros above it (R39, R60). An
image byte past PROG_MAX has no address below 4096 and is dropped. -/
def resetByte (p : Params) (image : List Byte) (a : Nat) : Byte :=
  if h : a < 80 then p.glyphTable[a]
  else if h2 : a < 512 then p.initLowRam[a - 80]
  else image.getD (a - 512) 0

/-- `Reset(image)` of the machine whose OPEN parameters are `p` (R230). `keys` stays as the input collaborator last
supplied it (R230); the model's own `draws` stays too, so later draws are still fresh (log 3). -/
def State.resetWith (s : State) (p : Params) (image : List Byte) : State where
  mem := Memory.build (resetByte p image) 0 4096
  V := p.resetV
  I := p.resetI
  pc := 0x200
  stack := p.resetStack
  sp := 0
  DT := p.resetDT
  ST := p.resetST
  fb := p.resetFb
  keys := s.keys
  redraw := p.resetRedraw
  lastUndefined := none
  halted := none
  draws := s.draws
  glyphPolicy := p.glyphWritePolicy

/-! ### The transactions and their outputs (R220) -/

/-- The transactions of R220. -/
inductive Transaction where
  | reset (image : List Byte)
  | step
  | tick
  | setKeys (k : KeyVector)
  | redrawClear
  deriving DecidableEq, Repr

/-- The output events of R220; they are not state (R10). -/
inductive Event where
  /-- A step whose fetch succeeds (R84); the mnemonic text is out of scope (R4). -/
  | diag (pc word : Word)
  /-- The undefined handler ran (R78, R207). -/
  | undefinedOpcode (pc word : Word)
  /-- The step raised a fatal condition (R200). -/
  | fatal (f : Fatal)
  /-- A tick found `ST = 1` (R212). -/
  | toneEnd
  /-- The image exceeded PROG_MAX (R61). -/
  | truncated
  deriving DecidableEq, Repr

/-- The effect of one transaction on the machine whose OPEN parameters are `p` (R220). -/
def transact (p : Params) (s : State) : Transaction → Result
  | .reset image => .next (s.resetWith p image)
  | .step => step s
  | .tick => .next s.tick
  | .setKeys k => .next (s.setKeys k)
  | .redrawClear => .next s.redrawClear

/-- The fatal event of a step from a running state that ended in `r` (R200). -/
def fatalEvents : Result → List Event
  | .next t => match t.halted with
    | some f => [.fatal f]
    | none => []
  | .fault _ => []
  | .refused _ => []

/-- The events of a step in order (R81): none while halted; after a fetch `Diag`, then what the routine emits. -/
def stepOutputs (s : State) : List Event :=
  match s.halted with
  | some _ => []
  | none =>
    match s.fetch with
    | none => fatalEvents s.fetchFails
    | some w =>
      .diag s.pc w ::
        (match decode w with
          | .ok i => fatalEvents (exec i s)
          | .error _ => [.undefinedOpcode s.pc w])

/-- The events of a tick: ToneEnd iff the machine runs and `ST = 1` (R210, R212). -/
def tickOutputs (s : State) : List Event :=
  match s.halted with
  | some _ => []
  | none => if s.ST = 1 then [.toneEnd] else []

/-- The events of a reset: Truncated iff the image is too long (R61, R230). -/
def resetOutputs (image : List Byte) : List Event :=
  if imageWellFormed image then [] else [.truncated]

/-- The events a transaction emits, from the state before it (R220; log 20). -/
def outputs (s : State) : Transaction → List Event
  | .reset image => resetOutputs image
  | .step => stepOutputs s
  | .tick => tickOutputs s
  | .setKeys _ => []
  | .redrawClear => []

/-- A schedule: the transactions one after another, in the order the driver chose (R221). -/
def runSchedule (p : Params) : List Transaction → State → Result
  | [], s => .next s
  | t :: ts, s =>
    match transact p s t with
    | .next s' => runSchedule p ts s'
    | .fault r => .fault r
    | .refused r => .refused r

/-- The events of a schedule in order (R221). -/
def scheduleOutputs (p : Params) : List Transaction → State → List Event
  | [], _ => []
  | t :: ts, s =>
    outputs s t ++
      (match transact p s t with
        | .next s' => scheduleOutputs p ts s'
        | .fault _ => []
        | .refused _ => [])

/-- The read ports (R220): readable between transactions, with no effect. -/
structure Ports where
  fb : Framebuffer
  redraw : Bool
  ST : Byte
  halted : Option Fatal
  lastUndefined : Option Word
  deriving DecidableEq, Repr

/-- What the read ports show (R214, R215, R220). -/
def State.ports (s : State) : Ports := ⟨s.fb, s.redraw, s.ST, s.halted, s.lastUndefined⟩

end Sys2Proof.Machine
end

