-- ==== Sys2Proof/Safety.lean ====
section
/-! DEFINITION. The terms the statements use: frames over the state record, the access table of 10_state.md R41, the
fatal causes of 60_exceptions.md R208 in closed form, the cells a sprite covers, and the invariants. -/

namespace Sys2Proof.Machine

/-- The machine runs: no fatal condition has halted it (R200). -/
def State.Running (s : State) : Prop := s.halted = none

/-! ### Frames -/

/-- The fields of the state record (R20), the model's own two among them. -/
inductive Field where
  | mem | V | I | pc | stack | sp | DT | ST | fb | keys | redraw | lastUndefined | halted | draws | glyphPolicy
  deriving DecidableEq, Repr

/-- A field has the same value in both states; memory and registers are compared through their reads. -/
def Field.same (s t : State) : Field → Prop
  | .mem => ∀ a, t.mem.read a = s.mem.read a
  | .V => ∀ r, t.readV r = s.readV r
  | .I => t.I = s.I
  | .pc => t.pc = s.pc
  | .stack => t.stack = s.stack
  | .sp => t.sp = s.sp
  | .DT => t.DT = s.DT
  | .ST => t.ST = s.ST
  | .fb => t.fb = s.fb
  | .keys => t.keys = s.keys
  | .redraw => t.redraw = s.redraw
  | .lastUndefined => t.lastUndefined = s.lastUndefined
  | .halted => t.halted = s.halted
  | .draws => t.draws = s.draws
  | .glyphPolicy => t.glyphPolicy = s.glyphPolicy

/-- From `s` to `t` every field keeps its value but those listed. -/
def Unchanged (except : List Field) (s t : State) : Prop := ∀ f, f ∉ except → f.same s t

/-- From `s` to `t` every V register keeps its value but those listed. -/
def RegsUnchanged (except : List Reg) (s t : State) : Prop := ∀ r, r ∉ except → t.readV r = s.readV r

/-- Every byte outside the `n` bytes from address `a` reads as before. -/
def BytesUnchanged (a n : Nat) (s t : State) : Prop :=
  ∀ b, ¬ (a ≤ b ∧ b < a + n) → t.mem.read b = s.mem.read b

/-- Every word that the row `(pattern, mask)` selects decodes to `mk` of it (R76). -/
def SelectedBy (pattern mask : Word) (mk : Word → Instr) : Prop :=
  ∀ w, w &&& mask = pattern → decode w = .ok (mk w)

/-! ### The access table (R41) -/

/-- The fields an instruction writes besides `pc` (R41, column "writes"); a random draw counts the draw. -/
def fieldsWritten : Instr → List Field
  | .cls _ => [.fb, .redraw]
  | .ret _ => [.sp]
  | .jp _ => []
  | .call _ => [.stack, .sp]
  | .seImm _ _ => []
  | .sneImm _ _ => []
  | .seReg _ _ _ => []
  | .ldImm _ _ => [.V]
  | .addImm _ _ => [.V]
  | .ldReg _ _ => [.V]
  | .or _ _ => [.V]
  | .and _ _ => [.V]
  | .xor _ _ => [.V]
  | .addReg _ _ => [.V]
  | .sub _ _ => [.V]
  | .shr _ _ => [.V]
  | .subn _ _ => [.V]
  | .shl _ _ => [.V]
  | .sneReg _ _ _ => []
  | .ldI _ => [.I]
  | .jpV0 _ => []
  | .rnd _ _ => [.V, .draws]
  | .drw _ _ _ => [.V, .fb, .redraw]
  | .skp _ => []
  | .sknp _ => []
  | .ldVxDt _ => [.V]
  | .ldVxK _ => [.V]
  | .ldDtVx _ => [.DT]
  | .ldStVx _ => [.ST]
  | .addIVx _ => [.V, .I]
  | .ldFVx _ => [.I]
  | .ldBVx _ => [.mem]
  | .ldMemVx _ => [.mem, .I]
  | .ldVxMem _ => [.V, .I]

/-- The V registers an instruction may write (R41). -/
def RegWritten (r : Reg) : Instr → Prop
  | .cls _ => False
  | .ret _ => False
  | .jp _ => False
  | .call _ => False
  | .seImm _ _ => False
  | .sneImm _ _ => False
  | .seReg _ _ _ => False
  | .ldImm x _ => r = x
  | .addImm x _ => r = x
  | .ldReg x _ => r = x
  | .or x _ => r = x
  | .and x _ => r = x
  | .xor x _ => r = x
  | .addReg x _ => r = x ∨ r = VF
  | .sub x _ => r = x ∨ r = VF
  | .shr x _ => r = x ∨ r = VF
  | .subn x _ => r = x ∨ r = VF
  | .shl x _ => r = x ∨ r = VF
  | .sneReg _ _ _ => False
  | .ldI _ => False
  | .jpV0 _ => False
  | .rnd x _ => r = x
  | .drw _ _ _ => r = VF
  | .skp _ => False
  | .sknp _ => False
  | .ldVxDt x => r = x
  | .ldVxK x => r = x
  | .ldDtVx _ => False
  | .ldStVx _ => False
  | .addIVx _ => r = VF
  | .ldFVx _ => False
  | .ldBVx _ => False
  | .ldMemVx _ => False
  | .ldVxMem x => r.toNat ≤ x.toNat

/-- How many bytes an instruction stores from address `I` up (R56). -/
def bytesStored : Instr → Nat
  | .cls _ => 0
  | .ret _ => 0
  | .jp _ => 0
  | .call _ => 0
  | .seImm _ _ => 0
  | .sneImm _ _ => 0
  | .seReg _ _ _ => 0
  | .ldImm _ _ => 0
  | .addImm _ _ => 0
  | .ldReg _ _ => 0
  | .or _ _ => 0
  | .and _ _ => 0
  | .xor _ _ => 0
  | .addReg _ _ => 0
  | .sub _ _ => 0
  | .shr _ _ => 0
  | .subn _ _ => 0
  | .shl _ _ => 0
  | .sneReg _ _ _ => 0
  | .ldI _ => 0
  | .jpV0 _ => 0
  | .rnd _ _ => 0
  | .drw _ _ _ => 0
  | .skp _ => 0
  | .sknp _ => 0
  | .ldVxDt _ => 0
  | .ldVxK _ => 0
  | .ldDtVx _ => 0
  | .ldStVx _ => 0
  | .addIVx _ => 0
  | .ldFVx _ => 0
  | .ldBVx _ => 3
  | .ldMemVx x => x.toNat + 1
  | .ldVxMem _ => 0

/-- A stack entry an instruction writes: `stack[sp]`, by 2nnn alone (R27, R41). -/
def StackWritten (k : Nat) (s : State) (i : Instr) : Prop := k = s.sp.val ∧ ∃ nnn, i = .call nnn

/-! ### The fatal causes (R208), in closed form -/

/-- The lowest address from 4096 up in an access of `n` bytes from `a`, none where there is none (R51, R53). -/
def lowestOutside (a n : Nat) : Option Nat := if 0 < n ∧ 4096 < a + n then some (max a 4096) else none

/-- The fatal record a read of `n` bytes from `I` raises (R204). -/
def readFatal (s : State) (w : Word) (n : Nat) : Option Fatal :=
  match lowestOutside s.I.toNat n with
  | some a => some (.memoryOutOfRange s.pc w a)
  | none => none

/-- The fatal record a store of `n` bytes from `I` raises (R204, R205). -/
def storeFatal (s : State) (w : Word) (n : Nat) : Option Fatal :=
  if 0 < n ∧ s.I.toNat ≤ 0x04F ∧ s.glyphPolicy = .fatal then some (.glyphWrite s.pc w s.I.toNat)
  else readFatal s w n

/-- The fatal record of a key index (R206). -/
def keyFatal (s : State) (w : Word) (v : Byte) : Option Fatal :=
  if 16 ≤ v.toNat then some (.keyIndexOutOfRange s.pc w v) else none

/-- The fatal record the instruction `i`, encoded by `w`, raises in `s` (R208). -/
def instrFatal (s : State) (w : Word) : Instr → Option Fatal
  | .ret _ => if s.sp.val = 0 then some (.stackUnderflow s.pc w) else none
  | .call _ => if s.sp.val = 16 then some (.stackOverflow s.pc w) else none
  | .drw _ _ n => readFatal s w n.toNat
  | .skp x => keyFatal s w (s.readV x)
  | .sknp x => keyFatal s w (s.readV x)
  | .ldBVx _ => storeFatal s w 3
  | .ldMemVx x => storeFatal s w (x.toNat + 1)
  | .ldVxMem x => readFatal s w (x.toNat + 1)
  | .cls _ => none
  | .jp _ => none
  | .seImm _ _ => none
  | .sneImm _ _ => none
  | .seReg _ _ _ => none
  | .ldImm _ _ => none
  | .addImm _ _ => none
  | .ldReg _ _ => none
  | .or _ _ => none
  | .and _ _ => none
  | .xor _ _ => none
  | .addReg _ _ => none
  | .sub _ _ => none
  | .shr _ _ => none
  | .subn _ _ => none
  | .shl _ _ => none
  | .sneReg _ _ _ => none
  | .ldI _ => none
  | .jpV0 _ => none
  | .rnd _ _ => none
  | .ldVxDt _ => none
  | .ldVxK _ => none
  | .ldDtVx _ => none
  | .ldStVx _ => none
  | .addIVx _ => none
  | .ldFVx _ => none

/-- The word the bytes at `pc` and `pc + 1` form (R70). -/
def State.wordAtPc (s : State) : Word := wordOfBytes (s.mem.read s.pc.toNat) (s.mem.read (s.pc.toNat + 1))

/-- The fatal record a step of the running machine `s` raises, none where it raises none (R201 to R209). -/
def State.stepFatal (s : State) : Option Fatal :=
  if 4096 ≤ s.pc.toNat + 1 then some (.fetchOutOfRange s.pc)
  else
    match decode s.wordAtPc with
    | .ok i => instrFatal s s.wordAtPc i
    | .error _ => none

/-! ### The sprite of Dxyn (R144) -/

/-- A set bit of the sprite falls on the cell at `row`, `col`: bit `7 - c` of the byte at `I + r`, for some row `r` of
the `n` and column `c` of the 8, both axes reduced per pixel (R144). -/
def SpriteCovers (s : State) (x y : Reg) (n : BitVec 4) (row col : Nat) : Prop :=
  ∃ r, r < n.toNat ∧ ∃ c, c < 8 ∧ (s.mem.read (s.I.toNat + r)).getLsbD (7 - c) = true ∧
    row = ((s.readV y).toNat % 32 + r) % 32 ∧ col = ((s.readV x).toNat % 64 + c) % 64

/-! ### Invariants -/

/-- Memory is canonical; `pc` is at most 0x10FE; every stored return address is one a step has executed at, so both its
bytes exist (R26, R28, R50). -/
def State.Inv (s : State) : Prop :=
  Memory.wf s.mem = true ∧ s.pc.toNat ≤ 0x10FE ∧
    ∀ k, (h : k < 16) → k < s.sp.val → (s.stack[k]).toNat + 1 < 4096

/-- A transaction a driver repeats while a program waits for a key: a step or a tick (R221). -/
def Transaction.waits : Transaction → Bool
  | .step => true
  | .tick => true
  | .reset _ => false
  | .setKeys _ => false
  | .redrawClear => false

/-- A program "ends at `e`" for the claims of the spec: the next fetch is at `e` and finds a jump to `e` itself
(70_reset_and_hazards.md R236). The machine does not stop there. -/
def State.EndsAt (s : State) (e : Word) : Prop :=
  s.pc = e ∧ ∃ w nnn, s.fetch = some w ∧ decode w = .ok (.jp nnn) ∧ zext16 nnn = e

/-- `n` ticks in a row (R211). -/
def State.ticks : Nat → State → State
  | 0, s => s
  | n + 1, s => State.ticks n s.tick

end Sys2Proof.Machine
end

