-- ==== Sys2Proof/Certificates/Slice0/Obligations.lean ====
section
/-! DEFINITION. The statements for the provers: each formalises numbered rules of spec/, named in its docstring.
No statement rests on a value that the model chose (a reset value of an OPEN parameter, a value of the random
source); the few that state what the MODEL adds to the spec say so. -/

section
open Sys2Proof
open Sys2Proof.Machine

/-! ### Encoding and decoding -/

/-- R71: the six fields of every 16-bit word, by the source's own shift-and-mask formulas. -/
def Obligations.FieldsOfWord : Prop :=
  ∀ w : Word,
    (fieldFamily w).toNat = (w.toNat >>> 12) &&& 0xF ∧
    (fieldNnn w).toNat = w.toNat &&& 0xFFF ∧
    (fieldKk w).toNat = w.toNat &&& 0xFF ∧
    (fieldN w).toNat = w.toNat &&& 0xF ∧
    (fieldX w).toNat = (w.toNat >>> 8) &&& 0xF ∧
    (fieldY w).toNat = (w.toNat >>> 4) &&& 0xF

/-- R76: decoding the word of any of the 34 instructions gives that instruction, at every operand value. -/
def Obligations.DecodeEncode : Prop := ∀ i : Instr, decode (encode i) = .ok i

/-- A word that decodes is the word of its instruction, so no bit of it is lost. R76 gives the rows; that the bits a
routine ignores (R75: words such as 0x0120 or 0x5121) survive decoding is the model's choice, log 13 (DESIGN CHOICE:
they are kept as the operand `ign`). -/
def Obligations.EncodeDecode : Prop := ∀ (w : Word) (i : Instr), decode w = .ok i → encode i = w

/-- R76: the 34 rows; a word decodes to an instruction of a row iff it selects that row; no word selects two rows; a
word that selects none is undefined. -/
def Obligations.DispatchByTable : Prop :=
  opcodeTable.length = 34 ∧
  (∀ (w : Word) (r : Row), r ∈ opcodeTable →
    (w &&& r.mask = r.pattern ↔ ∃ i, decode w = .ok i ∧ i.row = r)) ∧
  (∀ (w : Word) (r q : Row), r ∈ opcodeTable → q ∈ opcodeTable →
    w &&& r.mask = r.pattern → w &&& q.mask = q.pattern → r = q) ∧
  (∀ w : Word, decode w = .error (.undefinedWord w) ↔ ∀ r ∈ opcodeTable, w &&& r.mask ≠ r.pattern)

/-- R74, R77: the undefined words, family by family; families 1 to 7 and 9 to D have none. -/
def Obligations.UndefinedWords : Prop :=
  ∀ w : Word, decode w = .error (.undefinedWord w) ↔
    (fieldFamily w = 0x0 ∧ fieldN w ≠ 0x0 ∧ fieldN w ≠ 0xE) ∨
    (fieldFamily w = 0x8 ∧ 8 ≤ (fieldN w).toNat ∧ fieldN w ≠ 0xE) ∨
    (fieldFamily w = 0xE ∧ fieldKk w ≠ 0x9E ∧ fieldKk w ≠ 0xA1) ∨
    (fieldFamily w = 0xF ∧
      fieldKk w ∉ [0x07, 0x0A, 0x15, 0x18, 0x1E, 0x29, 0x33, 0x55, 0x65])

/-- 95_test_vectors.md section 2.1: the decode vectors (R74, R75, R77). -/
def Obligations.DecodeVectors : Prop :=
  decode 0x0000 = .ok (.cls 0x00) ∧ decode 0x0120 = .ok (.cls 0x12) ∧ decode 0x0FFE = .ok (.ret 0xFF) ∧
  decode 0x0123 = .error (.undefinedWord 0x0123) ∧ decode 0x5121 = .ok (.seReg 1 2 1) ∧
  decode 0x912F = .ok (.sneReg 1 2 0xF) ∧ decode 0x8008 = .error (.undefinedWord 0x8008) ∧
  decode 0x800F = .error (.undefinedWord 0x800F) ∧ decode 0xE5A2 = .error (.undefinedWord 0xE5A2) ∧
  decode 0xE000 = .error (.undefinedWord 0xE000) ∧ decode 0xF0FF = .error (.undefinedWord 0xF0FF) ∧
  decode 0xF000 = .error (.undefinedWord 0xF000) ∧ decode 0xD123 = .ok (.drw 1 2 3)

/-! ### The step -/

/-- R81: on a running machine whose fetched word decodes to an instruction, the step is that instruction's routine and
nothing around it. -/
def Obligations.StepRunsDecoded : Prop :=
  ∀ (s : State) (w : Word) (i : Instr), s.halted = none → s.fetch = some w → decode w = .ok i → step s = exec i s

/-- R70: a fetch at `pc + 1 ≥ 4096` raises FetchOutOfRange with `pc`; every other fetch reads `mem[pc]` and
`mem[pc+1]`, the first as bits 15:8, whatever the alignment of `pc`. -/
def Obligations.FetchWord : Prop :=
  (∀ s : State, s.halted = none → 4096 ≤ s.pc.toNat + 1 →
    step s = .next { s with halted := some (.fetchOutOfRange s.pc) }) ∧
  (∀ s : State, s.pc.toNat + 1 < 4096 →
    ∃ w, s.fetch = some w ∧
      w.toNat = (s.mem.read s.pc.toNat).toNat * 256 + (s.mem.read (s.pc.toNat + 1)).toNat)

/-- R78: a step that fetches an undefined word records it, advances `pc` by 2, changes nothing else, and emits
`UndefinedOpcode(pc, w)` and no fatal event. -/
def Obligations.UndefinedHandler : Prop :=
  ∀ (s : State) (w : Word), s.halted = none → s.fetch = some w → decode w = .error (.undefinedWord w) →
    step s = .next { s with lastUndefined := some w, pc := s.pc + 2 } ∧
    stepOutputs s = [.diag s.pc w, .undefinedOpcode s.pc w]

/-- R200: a step that raises a fatal condition changes `halted` and nothing else and emits the condition; while halted a
step and a tick change nothing and emit nothing, the set-keys and redraw-clear transactions still act; of all transactions
only a reset leaves the halted state. -/
def Obligations.FatalIsPrecise : Prop :=
  (∀ s t : State, step s = .next t → t.halted ≠ s.halted →
    ∃ f, t = { s with halted := some f } ∧ Event.fatal f ∈ stepOutputs s) ∧
  (∀ s : State, s.halted ≠ none →
    step s = .next s ∧ s.tick = s ∧ stepOutputs s = [] ∧ tickOutputs s = [] ∧
    (∀ k, s.setKeys k = { s with keys := k }) ∧ s.redrawClear = { s with redraw := false }) ∧
  (∀ (p : Params) (s t : State) (a : Transaction), s.halted ≠ none → transact p s a = .next t → t.halted = none →
    ∃ image, a = .reset image) ∧
  (∀ (p : Params) (s : State) (image : List Byte), (s.resetWith p image).halted = none)

/-- R208: the code numbers, and which steps of a running machine raise which condition with which info: after the step
`halted` is exactly the record the table gives for the state before it, none where the table gives none. -/
def Obligations.FatalCauses : Prop :=
  (∀ s t : State, s.halted = none → step s = .next t → t.halted = s.stepFatal) ∧
  (∀ (p w : Word) (a : Nat) (v : Byte),
    (Fatal.fetchOutOfRange p).code = 1 ∧ (Fatal.stackUnderflow p w).code = 2 ∧ (Fatal.stackOverflow p w).code = 3 ∧
    (Fatal.memoryOutOfRange p w a).code = 4 ∧ (Fatal.glyphWrite p w a).code = 5 ∧
    (Fatal.keyIndexOutOfRange p w v).code = 6)

/-- Every step from every state, reachable or not, answers a next state. This rests on the model's own form, log 1
(DEDUCED from R200): a fatal condition is taken as a next state with `halted` set, and a step of a halted machine, which
U13 of the spec calls stuck, answers that same state. -/
def Obligations.StepTotal : Prop := ∀ s : State, ∃ t, step s = .next t

/-! ### Families 0 to 7 -/

/-- R100: CLS unlights all 2048 cells, sets `redraw`, advances `pc` by 2 and changes nothing else. -/
def Obligations.ClsClears : Prop :=
  SelectedBy 0x0000 0xF00F (fun w => .cls (fieldMid w)) ∧
  ∀ (ign : BitVec 8) (s : State), ∃ t, exec (.cls ign) s = .next t ∧
    (∀ i < 2048, Framebuffer.cell t.fb i = false) ∧ t.redraw = true ∧ t.pc = s.pc + 2 ∧
    Unchanged [.fb, .redraw, .pc] s t

/-- R101: RET with `sp > 0` pops the last entry and resumes 2 above it; with `sp = 0` it raises StackUnderflow
and changes nothing else. The whole record of that clause (`pc`; the word, as the instruction's encoding) is the model's
reading, log 2 (DEDUCED from R203 and R208): R101 itself writes `pc` alone. -/
def Obligations.RetPops : Prop :=
  SelectedBy 0x000E 0xF00F (fun w => .ret (fieldMid w)) ∧
  (∀ (ign : BitVec 8) (s : State), s.sp.val = 0 →
    exec (.ret ign) s = .next { s with halted := some (.stackUnderflow s.pc (encode (.ret ign))) }) ∧
  (∀ (ign : BitVec 8) (s : State), (_h : 0 < s.sp.val) →
    ∃ t, exec (.ret ign) s = .next t ∧ t.sp.val + 1 = s.sp.val ∧
      t.pc = s.stack[s.sp.val - 1]'(by omega) + 2 ∧ Unchanged [.sp, .pc] s t)

/-- R102, R142: JP goes to `nnn`; JP_V0 goes to `nnn + V0`, a sum that is not masked to 12 bits. -/
def Obligations.JumpsGo : Prop :=
  SelectedBy 0x1000 0xF000 (fun w => .jp (fieldNnn w)) ∧
  SelectedBy 0xB000 0xF000 (fun w => .jpV0 (fieldNnn w)) ∧
  (∀ (nnn : Imm12) (s : State), ∃ t, exec (.jp nnn) s = .next t ∧ t.pc.toNat = nnn.toNat ∧ Unchanged [.pc] s t) ∧
  (∀ (nnn : Imm12) (s : State), ∃ t, exec (.jpV0 nnn) s = .next t ∧
    t.pc.toNat = nnn.toNat + (s.readV V0).toNat ∧ Unchanged [.pc] s t)

/-- R103: CALL with `sp < 16` stores its own address at `stack[sp]`, increments `sp` and goes to `nnn`; with `sp = 16`
it raises StackOverflow and changes nothing else. The whole record of that clause (`pc`; the word, as the instruction's
encoding) is the model's reading, log 2 (DEDUCED from R202 and R208): R103 itself writes `pc` alone. -/
def Obligations.CallPushes : Prop :=
  SelectedBy 0x2000 0xF000 (fun w => .call (fieldNnn w)) ∧
  (∀ (nnn : Imm12) (s : State), s.sp.val = 16 →
    exec (.call nnn) s = .next { s with halted := some (.stackOverflow s.pc (encode (.call nnn))) }) ∧
  (∀ (nnn : Imm12) (s : State), s.sp.val < 16 →
    ∃ t, exec (.call nnn) s = .next t ∧ t.sp.val = s.sp.val + 1 ∧ t.pc.toNat = nnn.toNat ∧
      (∀ k, (hk : k < 16) → t.stack[k] = if k = s.sp.val then s.pc else s.stack[k]) ∧
      Unchanged [.stack, .sp, .pc] s t)

/-- R101, R103 (source property 5): a RET right after a CALL resumes 2 above the call with the stack pointer restored. -/
def Obligations.CallThenRet : Prop :=
  ∀ (nnn : Imm12) (ign : BitVec 8) (s : State), s.sp.val < 16 →
    ∃ t u, exec (.call nnn) s = .next t ∧ exec (.ret ign) t = .next u ∧
      u.pc = s.pc + 2 ∧ Unchanged [.stack, .pc] s u

/-- R104, R105: SE_IMM skips iff `V[x] = kk`, SNE_IMM iff `V[x] ≠ kk`: `pc` advances by 4 or 2 and nothing else
changes. -/
def Obligations.ImmediateSkips : Prop :=
  SelectedBy 0x3000 0xF000 (fun w => .seImm (fieldX w) (fieldKk w)) ∧
  SelectedBy 0x4000 0xF000 (fun w => .sneImm (fieldX w) (fieldKk w)) ∧
  (∀ (x : Reg) (kk : Byte) (s : State), ∃ t, exec (.seImm x kk) s = .next t ∧
    (s.readV x = kk → t.pc = s.pc + 4) ∧ (s.readV x ≠ kk → t.pc = s.pc + 2) ∧ Unchanged [.pc] s t) ∧
  (∀ (x : Reg) (kk : Byte) (s : State), ∃ t, exec (.sneImm x kk) s = .next t ∧
    (s.readV x ≠ kk → t.pc = s.pc + 4) ∧ (s.readV x = kk → t.pc = s.pc + 2) ∧ Unchanged [.pc] s t)

/-- R106, R140: SE_REG skips iff `V[x] = V[y]`, SNE_REG iff they differ, whatever the ignored bits 3:0 hold. -/
def Obligations.RegisterSkips : Prop :=
  SelectedBy 0x5000 0xF000 (fun w => .seReg (fieldX w) (fieldY w) (fieldN w)) ∧
  SelectedBy 0x9000 0xF000 (fun w => .sneReg (fieldX w) (fieldY w) (fieldN w)) ∧
  (∀ (x y : Reg) (ign : BitVec 4) (s : State), ∃ t, exec (.seReg x y ign) s = .next t ∧
    (s.readV x = s.readV y → t.pc = s.pc + 4) ∧ (s.readV x ≠ s.readV y → t.pc = s.pc + 2) ∧
    Unchanged [.pc] s t) ∧
  (∀ (x y : Reg) (ign : BitVec 4) (s : State), ∃ t, exec (.sneReg x y ign) s = .next t ∧
    (s.readV x ≠ s.readV y → t.pc = s.pc + 4) ∧ (s.readV x = s.readV y → t.pc = s.pc + 2) ∧
    Unchanged [.pc] s t)

/-- R107, R108: LD_IMM writes `kk`; ADD_IMM writes the sum modulo 256; no register but `V[x]` changes, so VF is touched
only where `x = F`. -/
def Obligations.ImmediateLoads : Prop :=
  SelectedBy 0x6000 0xF000 (fun w => .ldImm (fieldX w) (fieldKk w)) ∧
  SelectedBy 0x7000 0xF000 (fun w => .addImm (fieldX w) (fieldKk w)) ∧
  (∀ (x : Reg) (kk : Byte) (s : State), ∃ t, exec (.ldImm x kk) s = .next t ∧
    t.readV x = kk ∧ t.pc = s.pc + 2 ∧ RegsUnchanged [x] s t ∧ Unchanged [.V, .pc] s t) ∧
  (∀ (x : Reg) (kk : Byte) (s : State), ∃ t, exec (.addImm x kk) s = .next t ∧
    (t.readV x).toNat = ((s.readV x).toNat + kk.toNat) % 256 ∧ t.pc = s.pc + 2 ∧
    RegsUnchanged [x] s t ∧ Unchanged [.V, .pc] s t)

/-! ### Family 8 -/

/-- R121 to R124: LD_REG, OR, AND, XOR write `V[x]` from the operands before the instruction and write no flag: every
other register, VF among them unless `x = F`, is unchanged. -/
def Obligations.LogicalOps : Prop :=
  SelectedBy 0x8000 0xF00F (fun w => .ldReg (fieldX w) (fieldY w)) ∧
  SelectedBy 0x8001 0xF00F (fun w => .or (fieldX w) (fieldY w)) ∧
  SelectedBy 0x8002 0xF00F (fun w => .and (fieldX w) (fieldY w)) ∧
  SelectedBy 0x8003 0xF00F (fun w => .xor (fieldX w) (fieldY w)) ∧
  (∀ (x y : Reg) (s : State), ∃ t, exec (.ldReg x y) s = .next t ∧ t.readV x = s.readV y ∧
    t.pc = s.pc + 2 ∧ RegsUnchanged [x] s t ∧ Unchanged [.V, .pc] s t) ∧
  (∀ (x y : Reg) (s : State), ∃ t, exec (.or x y) s = .next t ∧ t.readV x = s.readV x ||| s.readV y ∧
    t.pc = s.pc + 2 ∧ RegsUnchanged [x] s t ∧ Unchanged [.V, .pc] s t) ∧
  (∀ (x y : Reg) (s : State), ∃ t, exec (.and x y) s = .next t ∧ t.readV x = s.readV x &&& s.readV y ∧
    t.pc = s.pc + 2 ∧ RegsUnchanged [x] s t ∧ Unchanged [.V, .pc] s t) ∧
  (∀ (x y : Reg) (s : State), ∃ t, exec (.xor x y) s = .next t ∧ t.readV x = s.readV x ^^^ s.readV y ∧
    t.pc = s.pc + 2 ∧ RegsUnchanged [x] s t ∧ Unchanged [.V, .pc] s t)

/-- R120, R125: ADD_REG writes the sum modulo 256 to `V[x]` and, where `x ≠ F`, the carry to VF; with `x = F` the result
stays in VF. -/
def Obligations.AddWithCarry : Prop :=
  SelectedBy 0x8004 0xF00F (fun w => .addReg (fieldX w) (fieldY w)) ∧
  ∀ (x y : Reg) (s : State), ∃ t, exec (.addReg x y) s = .next t ∧
    (t.readV x).toNat = ((s.readV x).toNat + (s.readV y).toNat) % 256 ∧
    (x ≠ VF → t.readV VF = if (s.readV x).toNat + (s.readV y).toNat > 255 then 1 else 0) ∧
    t.pc = s.pc + 2 ∧ RegsUnchanged [x, VF] s t ∧ Unchanged [.V, .pc] s t

/-- R120, R126, R128: SUB and SUBN write the difference modulo 256 and, where `x ≠ F`, the STRICT not-borrow flag: equal
operands give 0. -/
def Obligations.SubtractStrict : Prop :=
  SelectedBy 0x8005 0xF00F (fun w => .sub (fieldX w) (fieldY w)) ∧
  SelectedBy 0x8007 0xF00F (fun w => .subn (fieldX w) (fieldY w)) ∧
  (∀ (x y : Reg) (s : State), ∃ t, exec (.sub x y) s = .next t ∧
    (t.readV x).toNat = ((s.readV x).toNat + 256 - (s.readV y).toNat) % 256 ∧
    (x ≠ VF → t.readV VF = if (s.readV x).toNat > (s.readV y).toNat then 1 else 0) ∧
    t.pc = s.pc + 2 ∧ RegsUnchanged [x, VF] s t ∧ Unchanged [.V, .pc] s t) ∧
  (∀ (x y : Reg) (s : State), ∃ t, exec (.subn x y) s = .next t ∧
    (t.readV x).toNat = ((s.readV y).toNat + 256 - (s.readV x).toNat) % 256 ∧
    (x ≠ VF → t.readV VF = if (s.readV y).toNat > (s.readV x).toNat then 1 else 0) ∧
    t.pc = s.pc + 2 ∧ RegsUnchanged [x, VF] s t ∧ Unchanged [.V, .pc] s t)

/-- R120, R127, R129: SHR and SHL shift `V[x]` by one and put the bit shifted out in VF where `x ≠ F`; the result does
not depend on `y`. -/
def Obligations.ShiftByOne : Prop :=
  SelectedBy 0x8006 0xF00F (fun w => .shr (fieldX w) (fieldY w)) ∧
  SelectedBy 0x800E 0xF00F (fun w => .shl (fieldX w) (fieldY w)) ∧
  (∀ (x y : Reg) (s : State), ∃ t, exec (.shr x y) s = .next t ∧
    (t.readV x).toNat = (s.readV x).toNat / 2 ∧
    (x ≠ VF → (t.readV VF).toNat = (s.readV x).toNat % 2) ∧
    t.pc = s.pc + 2 ∧ RegsUnchanged [x, VF] s t ∧ Unchanged [.V, .pc] s t) ∧
  (∀ (x y : Reg) (s : State), ∃ t, exec (.shl x y) s = .next t ∧
    (t.readV x).toNat = (s.readV x).toNat * 2 % 256 ∧
    (x ≠ VF → (t.readV VF).toNat = (s.readV x).toNat / 128) ∧
    t.pc = s.pc + 2 ∧ RegsUnchanged [x, VF] s t ∧ Unchanged [.V, .pc] s t)

/-! ### Families 9 to D -/

/-- R141, R168: LD_I writes `nnn` to `I`; LD_F_VX writes `V[x] * 5`, on the full byte. -/
def Obligations.IndexLoads : Prop :=
  SelectedBy 0xA000 0xF000 (fun w => .ldI (fieldNnn w)) ∧
  SelectedBy 0xF029 0xF0FF (fun w => .ldFVx (fieldX w)) ∧
  (∀ (nnn : Imm12) (s : State), ∃ t, exec (.ldI nnn) s = .next t ∧ t.I.toNat = nnn.toNat ∧
    t.pc = s.pc + 2 ∧ Unchanged [.I, .pc] s t) ∧
  (∀ (x : Reg) (s : State), ∃ t, exec (.ldFVx x) s = .next t ∧ t.I.toNat = (s.readV x).toNat * 5 ∧
    t.pc = s.pc + 2 ∧ Unchanged [.I, .pc] s t)

/-- R33, R143: RND always completes and writes `kk AND r`, `r` being the byte this execution draws, and changes nothing
else. The form of the draw is the model's own, log 3 (DESIGN CHOICE): `r` is the free value `Config.randomByte` at the
count of draws before the instruction, of which nothing is known, and the count goes up by one, so that the next draw is
a fresh one. -/
def Obligations.RandomUnderMask : Prop :=
  SelectedBy 0xC000 0xF000 (fun w => .rnd (fieldX w) (fieldKk w)) ∧
  ∀ (x : Reg) (kk : Byte) (s : State), ∃ t, exec (.rnd x kk) s = .next t ∧
    t.readV x = kk &&& Config.randomByte s.draws ∧ t.draws = s.draws + 1 ∧
    t.pc = s.pc + 2 ∧ RegsUnchanged [x] s t ∧ Unchanged [.V, .pc, .draws] s t

/-- R144: DRW whose sprite lies below 4096 flips exactly the cells a set sprite bit falls on (both axes wrapping per
pixel), sets VF to 1 iff a lit cell is among them and to 0 otherwise, sets `redraw`, advances `pc` by 2 and changes
nothing else; the origin is that of the registers before the draw. A sprite that reaches past 0xFFF raises
MemoryOutOfRange with the lowest such address and changes nothing else, not even VF or `redraw`. Two points are not
R144's source but readings: that `x` or `y` = F gives the origin from the old VF, log 17 (DEDUCED, D15), and the whole
trap record (`pc`, the word, the address), log 2 (DEDUCED from R204 and R208). -/
def Obligations.DrawFlipsCells : Prop :=
  SelectedBy 0xD000 0xF000 (fun w => .drw (fieldX w) (fieldY w) (fieldN w)) ∧
  (∀ (x y : Reg) (n : BitVec 4) (s : State), n ≠ 0 → 4096 < s.I.toNat + n.toNat →
    exec (.drw x y n) s =
      .next { s with halted := some (.memoryOutOfRange s.pc (encode (.drw x y n)) (max s.I.toNat 4096)) }) ∧
  ∀ (x y : Reg) (n : BitVec 4) (s : State), (n = 0 ∨ s.I.toNat + n.toNat ≤ 4096) →
    ∃ t, exec (.drw x y n) s = .next t ∧
      (∀ row < 32, ∀ col < 64,
        (SpriteCovers s x y n row col →
          Framebuffer.cell t.fb (row * 64 + col) = !Framebuffer.cell s.fb (row * 64 + col)) ∧
        (¬ SpriteCovers s x y n row col →
          Framebuffer.cell t.fb (row * 64 + col) = Framebuffer.cell s.fb (row * 64 + col))) ∧
      ((∃ row, row < 32 ∧ ∃ col, col < 64 ∧ SpriteCovers s x y n row col ∧
          Framebuffer.cell s.fb (row * 64 + col) = true) → t.readV VF = 1) ∧
      ((¬ ∃ row, row < 32 ∧ ∃ col, col < 64 ∧ SpriteCovers s x y n row col ∧
          Framebuffer.cell s.fb (row * 64 + col) = true) → t.readV VF = 0) ∧
      t.redraw = true ∧ t.pc = s.pc + 2 ∧ RegsUnchanged [VF] s t ∧
      Unchanged [.V, .fb, .redraw, .pc] s t

/-- R144 (source property 6): drawing the same sprite at the same place twice restores the framebuffer; VF after the
second draw is 1 iff the sprite has a set bit that the first draw lit. The registers that give the origin are not VF. -/
def Obligations.DrawTwiceRestores : Prop :=
  ∀ (x y : Reg) (n : BitVec 4) (s : State), x ≠ VF → y ≠ VF → (n = 0 ∨ s.I.toNat + n.toNat ≤ 4096) →
    ∃ t u, exec (.drw x y n) s = .next t ∧ exec (.drw x y n) t = .next u ∧ u.fb = s.fb ∧
      (u.readV VF = 1 ↔ ∃ row, row < 32 ∧ ∃ col, col < 64 ∧ SpriteCovers s x y n row col ∧
        Framebuffer.cell s.fb (row * 64 + col) = false)

/-! ### Families E and F -/

/-- R160, R161, R162, R206: with `V[x] < 16` SKP skips iff key `V[x]` is pressed and SKNP iff it is not; with
`V[x] ≥ 16` both raise KeyIndexOutOfRange and change nothing else. The whole trap record (`pc`; the word, as the
instruction's encoding; `V[x]`) is the model's reading, log 2 (DEDUCED from R206 and R208): R161 and R162 write `V[x]`
alone. -/
def Obligations.KeySkips : Prop :=
  SelectedBy 0xE09E 0xF0FF (fun w => .skp (fieldX w)) ∧
  SelectedBy 0xE0A1 0xF0FF (fun w => .sknp (fieldX w)) ∧
  (∀ (x : Reg) (s : State), (h : (s.readV x).toNat < 16) → ∃ t, exec (.skp x) s = .next t ∧
    t.pc = s.pc + (if s.keys[(s.readV x).toNat] = true then 4 else 2) ∧ Unchanged [.pc] s t) ∧
  (∀ (x : Reg) (s : State), (h : (s.readV x).toNat < 16) → ∃ t, exec (.sknp x) s = .next t ∧
    t.pc = s.pc + (if s.keys[(s.readV x).toNat] = true then 2 else 4) ∧ Unchanged [.pc] s t) ∧
  (∀ (x : Reg) (s : State), 16 ≤ (s.readV x).toNat →
    exec (.skp x) s =
      .next { s with halted := some (.keyIndexOutOfRange s.pc (encode (.skp x)) (s.readV x)) } ∧
    exec (.sknp x) s =
      .next { s with halted := some (.keyIndexOutOfRange s.pc (encode (.sknp x)) (s.readV x)) })

/-- R163, R165, R166: LD_VX_DT copies DT to `V[x]`; LD_DT_VX and LD_ST_VX copy `V[x]` to DT and ST. -/
def Obligations.TimerMoves : Prop :=
  SelectedBy 0xF007 0xF0FF (fun w => .ldVxDt (fieldX w)) ∧
  SelectedBy 0xF015 0xF0FF (fun w => .ldDtVx (fieldX w)) ∧
  SelectedBy 0xF018 0xF0FF (fun w => .ldStVx (fieldX w)) ∧
  (∀ (x : Reg) (s : State), ∃ t, exec (.ldVxDt x) s = .next t ∧ t.readV x = s.DT ∧
    t.pc = s.pc + 2 ∧ RegsUnchanged [x] s t ∧ Unchanged [.V, .pc] s t) ∧
  (∀ (x : Reg) (s : State), ∃ t, exec (.ldDtVx x) s = .next t ∧ t.DT = s.readV x ∧
    t.pc = s.pc + 2 ∧ Unchanged [.DT, .pc] s t) ∧
  (∀ (x : Reg) (s : State), ∃ t, exec (.ldStVx x) s = .next t ∧ t.ST = s.readV x ∧
    t.pc = s.pc + 2 ∧ Unchanged [.ST, .pc] s t)

/-- R164: LD_VX_K with no key pressed changes nothing at all; with some key pressed it writes the least pressed index
and advances `pc` by 2. -/
def Obligations.KeyWait : Prop :=
  SelectedBy 0xF00A 0xF0FF (fun w => .ldVxK (fieldX w)) ∧
  (∀ (x : Reg) (s : State), (∀ k, (h : k < 16) → s.keys[k] = false) → exec (.ldVxK x) s = .next s) ∧
  (∀ (x : Reg) (s : State) (k : Nat), (h : k < 16) → s.keys[k] = true →
    (∀ j, (hj : j < k) → s.keys[j] = false) →
    ∃ t, exec (.ldVxK x) s = .next t ∧ (t.readV x).toNat = k ∧ t.pc = s.pc + 2 ∧
      RegsUnchanged [x] s t ∧ Unchanged [.V, .pc] s t)

/-- R164, R221, R235: while a program waits in LD_VX_K with no key pressed, any number of steps and ticks in any order
changes nothing but the timers, and each tick still counts them down. -/
def Obligations.KeyWaitTicks : Prop :=
  ∀ (p : Params) (s : State) (w : Word) (x : Reg) (ts : List Transaction),
    s.halted = none → s.fetch = some w → decode w = .ok (.ldVxK x) →
    (∀ k, (h : k < 16) → s.keys[k] = false) → (∀ a ∈ ts, a.waits = true) →
    ∃ t, runSchedule p ts s = .next t ∧ Unchanged [.DT, .ST] s t ∧
      t.DT.toNat = s.DT.toNat - ts.countP (fun a => a = .tick) ∧
      t.ST.toNat = s.ST.toNat - ts.countP (fun a => a = .tick)

/-- R167: ADD_I_VX writes to VF whether the natural sum exceeds 0xFFF, then adds `V[x]`, read after the flag, to `I`
modulo 2^16. That for `x = F` the NEW flag is added is the spec's choice where its source is silent (D17), log 19
(DEDUCED). -/
def Obligations.AddToIndex : Prop :=
  SelectedBy 0xF01E 0xF0FF (fun w => .addIVx (fieldX w)) ∧
  ∀ (x : Reg) (s : State), ∃ t, exec (.addIVx x) s = .next t ∧
    t.readV VF = (if s.I.toNat + (s.readV x).toNat > 0xFFF then 1 else 0) ∧
    t.I.toNat = (s.I.toNat + (t.readV x).toNat) % 65536 ∧
    t.pc = s.pc + 2 ∧ RegsUnchanged [VF] s t ∧ Unchanged [.V, .I, .pc] s t

/-- R52, R53, R169, R204, R205: LD_B_VX stores the three decimal digits of `V[x]` at `I`, `I+1`, `I+2` and changes no
other byte; past 0xFFF it raises MemoryOutOfRange, in the glyph table under policy Fatal it raises GlyphWrite, and
a trap changes nothing else. The whole trap records (`pc`; the word, as the instruction's encoding; the lowest failing
address) are the model's reading, log 2 (DEDUCED from R204, R205 and R208): R169 gives no info. -/
def Obligations.BcdStore : Prop :=
  SelectedBy 0xF033 0xF0FF (fun w => .ldBVx (fieldX w)) ∧
  (∀ (x : Reg) (s : State), s.I.toNat + 3 ≤ 4096 → (s.I.toNat ≤ 0x04F → s.glyphPolicy = .write) →
    ∃ t, exec (.ldBVx x) s = .next t ∧
      (t.mem.read s.I.toNat).toNat * 100 + (t.mem.read (s.I.toNat + 1)).toNat * 10 +
        (t.mem.read (s.I.toNat + 2)).toNat = (s.readV x).toNat ∧
      (t.mem.read s.I.toNat).toNat ≤ 2 ∧ (t.mem.read (s.I.toNat + 1)).toNat ≤ 9 ∧
      (t.mem.read (s.I.toNat + 2)).toNat ≤ 9 ∧
      t.pc = s.pc + 2 ∧ BytesUnchanged s.I.toNat 3 s t ∧ Unchanged [.mem, .pc] s t) ∧
  (∀ (x : Reg) (s : State), 4096 < s.I.toNat + 3 →
    exec (.ldBVx x) s =
      .next { s with halted := some (.memoryOutOfRange s.pc (encode (.ldBVx x)) (max s.I.toNat 4096)) }) ∧
  (∀ (x : Reg) (s : State), s.I.toNat ≤ 0x04F → s.glyphPolicy = .fatal →
    exec (.ldBVx x) s = .next { s with halted := some (.glyphWrite s.pc (encode (.ldBVx x)) s.I.toNat) })

/-- R52, R53, R170, R204, R205: LD_MEM_VX stores V0 to Vx from `I` up, adds `x + 1` to `I` modulo 2^16 and changes no
other byte; past 0xFFF it raises MemoryOutOfRange, in the glyph table under policy Fatal it raises GlyphWrite, and
a trap changes nothing else. The whole trap records (`pc`; the word, as the instruction's encoding; the lowest failing
address) are the model's reading, log 2 (DEDUCED from R204, R205 and R208): R170 gives no info. -/
def Obligations.StoreBlock : Prop :=
  SelectedBy 0xF055 0xF0FF (fun w => .ldMemVx (fieldX w)) ∧
  (∀ (x : Reg) (s : State), s.I.toNat + x.toNat + 1 ≤ 4096 → (s.I.toNat ≤ 0x04F → s.glyphPolicy = .write) →
    ∃ t, exec (.ldMemVx x) s = .next t ∧
      (∀ r : Reg, r.toNat ≤ x.toNat → t.mem.read (s.I.toNat + r.toNat) = s.readV r) ∧
      t.I.toNat = s.I.toNat + x.toNat + 1 ∧ t.pc = s.pc + 2 ∧
      BytesUnchanged s.I.toNat (x.toNat + 1) s t ∧ Unchanged [.mem, .I, .pc] s t) ∧
  (∀ (x : Reg) (s : State), 4096 < s.I.toNat + x.toNat + 1 →
    exec (.ldMemVx x) s =
      .next { s with halted := some (.memoryOutOfRange s.pc (encode (.ldMemVx x)) (max s.I.toNat 4096)) }) ∧
  (∀ (x : Reg) (s : State), s.I.toNat ≤ 0x04F → s.glyphPolicy = .fatal →
    exec (.ldMemVx x) s = .next { s with halted := some (.glyphWrite s.pc (encode (.ldMemVx x)) s.I.toNat) })

/-- R53, R171, R204: LD_VX_MEM loads V0 to Vx from `I` up, adds `x + 1` to `I` and leaves the registers above Vx; past
0xFFF it raises MemoryOutOfRange and changes nothing else. That `I` moves is the spec's own reading of "inverse read"
(R171, D16), log 18 (DEDUCED); the whole trap record (`pc`; the word, as the instruction's encoding; the address) is
log 2 (DEDUCED from R204 and R208). -/
def Obligations.LoadBlock : Prop :=
  SelectedBy 0xF065 0xF0FF (fun w => .ldVxMem (fieldX w)) ∧
  (∀ (x : Reg) (s : State), s.I.toNat + x.toNat + 1 ≤ 4096 →
    ∃ t, exec (.ldVxMem x) s = .next t ∧
      (∀ r : Reg, r.toNat ≤ x.toNat → t.readV r = s.mem.read (s.I.toNat + r.toNat)) ∧
      (∀ r : Reg, x.toNat < r.toNat → t.readV r = s.readV r) ∧
      t.I.toNat = s.I.toNat + x.toNat + 1 ∧ t.pc = s.pc + 2 ∧ Unchanged [.V, .I, .pc] s t) ∧
  (∀ (x : Reg) (s : State), 4096 < s.I.toNat + x.toNat + 1 →
    exec (.ldVxMem x) s =
      .next { s with halted := some (.memoryOutOfRange s.pc (encode (.ldVxMem x)) (max s.I.toNat 4096)) })

/-- R170, R171: a block that LD_MEM_VX stored is loaded back by LD_VX_MEM from the same `I`, whatever the registers held
in between. -/
def Obligations.StoreThenLoadBlock : Prop :=
  ∀ (x : Reg) (s : State) (regs : Vector Byte 16), s.I.toNat + x.toNat + 1 ≤ 4096 →
    (s.I.toNat ≤ 0x04F → s.glyphPolicy = .write) →
    ∃ t u, exec (.ldMemVx x) s = .next t ∧ exec (.ldVxMem x) { t with I := s.I, V := regs } = .next u ∧
      ∀ r : Reg, r.toNat ≤ x.toNat → u.readV r = s.readV r

/-! ### The access table and memory -/

/-- R41: whatever an instruction answers, it writes no field, no register, no stack entry and no byte but those its row
of the access table lists, `pc`, and `halted` where it raises a fatal condition. -/
def Obligations.AccessTable : Prop :=
  ∀ (i : Instr) (s t : State), exec i s = .next t →
    Unchanged (.pc :: .halted :: fieldsWritten i) s t ∧
    (∀ r, ¬ RegWritten r i → t.readV r = s.readV r) ∧
    (∀ k, (h : k < 16) → ¬ StackWritten k s i → t.stack[k] = s.stack[k]) ∧
    BytesUnchanged s.I.toNat (bytesStored i) s t

/-- R51, R52: one access: reads and writes fail from 4096 up; a write to 0x000 to 0x04F fails under policy Fatal and
passes under policy Write; a write that passes makes its address read as the byte written and no other address change. -/
def Obligations.AccessChecks : Prop :=
  (∀ a : Nat, checkRead a = if 4096 ≤ a then some (.outOfRange a) else none) ∧
  (∀ (p : GlyphPolicy) (a : Nat),
    (4096 ≤ a → checkWrite p a = some (.outOfRange a)) ∧
    (a ≤ 0x04F → checkWrite .fatal a = some (.glyph a)) ∧
    (a ≤ 0x04F → checkWrite .write a = none) ∧
    (0x04F < a → a < 4096 → checkWrite p a = none)) ∧
  (∀ (m : Memory) (a b : Nat) (v : Byte), (m.write a v).read b = if b = a then v else m.read b)

/-- R64, R237: a store is seen by the very next fetch, with no fence between. LD_MEM_VX over the word after itself makes
the next fetch read V0 and V1 (for `x = 0`, V0 and the old second byte); LD_B_VX over that word makes it read the
hundreds and the tens digit of `V[x]`. -/
def Obligations.StoreThenFetch : Prop :=
  (∀ (x : Reg) (s : State), 1 ≤ x.toNat → s.I = s.pc + 2 → s.I.toNat + x.toNat + 1 ≤ 4096 →
    (s.I.toNat ≤ 0x04F → s.glyphPolicy = .write) →
    ∃ t, exec (.ldMemVx x) s = .next t ∧ t.fetch = some (wordOfBytes (s.readV 0x0) (s.readV 0x1))) ∧
  (∀ s : State, s.I = s.pc + 2 → s.I.toNat + 2 ≤ 4096 → (s.I.toNat ≤ 0x04F → s.glyphPolicy = .write) →
    ∃ t, exec (.ldMemVx 0x0) s = .next t ∧
      t.fetch = some (wordOfBytes (s.readV 0x0) (s.mem.read (s.I.toNat + 1)))) ∧
  (∀ (x : Reg) (s : State), s.I = s.pc + 2 → s.I.toNat + 3 ≤ 4096 →
    (s.I.toNat ≤ 0x04F → s.glyphPolicy = .write) →
    ∃ t w, exec (.ldBVx x) s = .next t ∧ t.fetch = some w ∧
      w.toNat = (s.readV x).toNat / 100 * 256 + (s.readV x).toNat / 10 % 10)

/-! ### Invariants and whole-machine rules -/

/-- The invariant holds at reset, of every program image and every value of the OPEN parameters (R39, R230). -/
def Obligations.InvAtReset : Prop :=
  State.reset.Inv ∧ ∀ (p : Params) (s : State) (image : List Byte), (s.resetWith p image).Inv

/-- R26, R28, R50: every step keeps memory canonical, `pc` at most 0x10FE, and every stored return address one whose
two bytes exist. -/
def Obligations.StepKeepsInv : Prop := ∀ s t : State, s.Inv → step s = .next t → t.Inv

/-- R221: every schedule of transactions, in whatever order the driver chooses, keeps the invariant. -/
def Obligations.ScheduleKeepsInv : Prop :=
  ∀ (p : Params) (ts : List Transaction) (s t : State), s.Inv → runSchedule p ts s = .next t → t.Inv

/-- R52, R58: under policy Fatal no step ever changes a byte of the glyph table. -/
def Obligations.GlyphTableConstant : Prop :=
  ∀ s t : State, s.glyphPolicy = .fatal → step s = .next t → ∀ a < 80, t.mem.read a = s.mem.read a

/-- R31, R216: no step writes `keys`; and (the model's own, log 4) no step changes the glyph policy. -/
def Obligations.StepKeepsInputs : Prop :=
  ∀ s t : State, step s = .next t → t.keys = s.keys ∧ t.glyphPolicy = s.glyphPolicy

/-- R32: a step that changes the framebuffer leaves `redraw` true, and no step clears `redraw`. -/
def Obligations.RedrawSet : Prop :=
  ∀ s t : State, step s = .next t → (t.fb ≠ s.fb → t.redraw = true) ∧ (s.redraw = true → t.redraw = true)

/-- R34: a step changes `last_undefined` only by fetching an undefined word, and then to that word. -/
def Obligations.UndefinedRecord : Prop :=
  ∀ s t : State, step s = .next t → t.lastUndefined ≠ s.lastUndefined →
    ∃ w, s.fetch = some w ∧ decode w = .error (.undefinedWord w) ∧ t.lastUndefined = some w

/-- R29, R40: no instruction reads ST or `last_undefined`: two machines that differ only there differ only there after a
step, so no program can learn either. -/
def Obligations.SoundTimerUnread : Prop :=
  ∀ (s t : State) (st : Byte) (u : Option Word), step s = .next t →
    ∃ t', step { s with ST := st, lastUndefined := u } = .next t' ∧
      { t' with ST := t.ST, lastUndefined := t.lastUndefined } = t

/-- R236: the end of a run that the spec defines for claims stops nothing: the machine keeps executing the self-jump, each
step of which leaves the whole state as it was. -/
def Obligations.SelfJumpRepeats : Prop :=
  ∀ (s : State) (e : Word), s.halted = none → s.EndsAt e → step s = .next s

/-! ### Timers, interface, reset -/

/-- R210: a tick of a running machine counts each timer down by one, never below 0, changes nothing else and emits
ToneEnd iff it finds ST = 1; a halted machine's tick changes and emits nothing. -/
def Obligations.TickCountsDown : Prop :=
  (∀ s : State, s.halted = none →
    s.tick.DT.toNat = s.DT.toNat - 1 ∧ s.tick.ST.toNat = s.ST.toNat - 1 ∧ Unchanged [.DT, .ST] s s.tick ∧
    tickOutputs s = if s.ST = 1 then [.toneEnd] else []) ∧
  (∀ s : State, s.halted ≠ none → s.tick = s ∧ tickOutputs s = [])

/-- R211, R212: `n` ticks of a running machine take each timer down by `n`, stopping at 0, and emit ToneEnd once iff ST
reaches 0 within them, else not at all. -/
def Obligations.TicksAndToneEnd : Prop :=
  ∀ (p : Params) (n : Nat) (s : State), s.halted = none →
    runSchedule p (List.replicate n .tick) s = .next (State.ticks n s) ∧
    (State.ticks n s).DT.toNat = s.DT.toNat - n ∧ (State.ticks n s).ST.toNat = s.ST.toNat - n ∧
    Unchanged [.DT, .ST] s (State.ticks n s) ∧
    scheduleOutputs p (List.replicate n .tick) s =
      if 1 ≤ s.ST.toNat ∧ s.ST.toNat ≤ n then [.toneEnd] else []

/-- R215, R216: SetKeys writes `keys` and nothing else; RedrawClear clears `redraw` and nothing else; neither emits. -/
def Obligations.InputTransactions : Prop :=
  ∀ (p : Params) (s : State) (k : KeyVector),
    transact p s (.setKeys k) = .next { s with keys := k } ∧ outputs s (.setKeys k) = [] ∧
    transact p s .redrawClear = .next { s with redraw := false } ∧ outputs s .redrawClear = []

/-- R39, R60, R61, R230: Reset(image) gives every field its reset value for EVERY value of the OPEN parameters, places
the image from 0x200, zeros the rest, drops what exceeds 3584 bytes and then, and only then, reports Truncated (which
halts nothing); it leaves `keys`. -/
def Obligations.ResetState : Prop :=
  ∀ (p : Params) (s : State) (image : List Byte), ∃ t, transact p s (.reset image) = .next t ∧
    t.halted = none ∧ t.lastUndefined = none ∧ t.V = p.resetV ∧ t.I = p.resetI ∧ t.DT = p.resetDT ∧
    t.ST = p.resetST ∧ t.fb = p.resetFb ∧ t.redraw = p.resetRedraw ∧ t.stack = p.resetStack ∧ t.sp.val = 0 ∧
    t.pc = 0x200 ∧ t.keys = s.keys ∧
    (∀ a, (h : a < 80) → t.mem.read a = p.glyphTable[a]) ∧
    (∀ a, (h : a < 432) → t.mem.read (0x050 + a) = p.initLowRam[a]) ∧
    (∀ k, (h : k < image.length) → k < 3584 → t.mem.read (0x200 + k) = image[k]) ∧
    (∀ k, image.length ≤ k → k < 3584 → t.mem.read (0x200 + k) = 0) ∧
    outputs s (.reset image) = (if 3584 < image.length then [.truncated] else [])

/-- R84, R220: what a running machine's step emits: only the fatal event where the fetch fails; where the word is an
instruction, Diag and then the fatal event iff the routine sets `halted`. That the events are a function of the
state before the step is log 20 (DESIGN CHOICE), and that a step raising after its fetch emits Diag BEFORE the fatal
event is log 20 (DEDUCED from the order of R81); R84 and R200 give each event by itself. -/
def Obligations.StepEvents : Prop :=
  ∀ s : State, s.halted = none →
    (s.fetch = none → stepOutputs s = [.fatal (.fetchOutOfRange s.pc)]) ∧
    (∀ w i t, s.fetch = some w → decode w = .ok i → exec i s = .next t →
      stepOutputs s = .diag s.pc w :: (match t.halted with | some f => [.fatal f] | none => []))

end
end

