-- ==== Sys2Proof/Laws/Memory.lean ====
section
/-! SUPPORT. Memory: read after write, blocks, and that every memory operation keeps the canonical form. -/

namespace Sys2Proof.Machine

/-! ### Read after write (20_memory.md R50, R57) -/

theorem Memory.read_insert (m : Memory) (a b : Nat) (v : Byte) :
    (Memory.insert a v m).read b = if b = a then v else m.read b := by
  induction m with
  | nil => simp [Memory.insert, Memory.read]
  | cons c m ih =>
    simp only [Memory.insert]
    split
    · simp only [Memory.read]
    · split
      · rename_i h; subst h; simp only [Memory.read]; split <;> rfl
      · simp only [Memory.read, ih]
        split <;> split <;> simp_all

theorem Memory.read_erase (m : Memory) (a b : Nat) :
    (Memory.erase a m).read b = if b = a then unlistedByte a else m.read b := by
  induction m with
  | nil => simp only [Memory.erase, Memory.read]; split <;> simp_all
  | cons c m ih =>
    simp only [Memory.erase]
    split
    · rename_i h; subst h; rw [ih]; simp only [Memory.read]; split <;> simp_all
    · simp only [Memory.read, ih]
      split <;> split <;> simp_all

/-- Reading after a write: the byte written at its address, the old byte everywhere else. -/
theorem Memory.read_write (m : Memory) (a b : Nat) (v : Byte) :
    (m.write a v).read b = if b = a then v else m.read b := by
  unfold Memory.write
  split
  · rename_i h; rw [Memory.read_erase, h]
  · exact Memory.read_insert m a b v

@[simp] theorem Memory.read_write_same (m : Memory) (a : Nat) (v : Byte) : (m.write a v).read a = v := by
  simp [Memory.read_write]

theorem Memory.read_write_ne (m : Memory) {a b : Nat} (v : Byte) (h : b ≠ a) :
    (m.write a v).read b = m.read b := by
  simp [Memory.read_write, h]

/-- Reading after a block write: the block's byte inside it, the old byte outside it (R56). -/
theorem Memory.read_writeBlock (m : Memory) (a b : Nat) (vs : List Byte) :
    (m.writeBlock a vs).read b =
      if a ≤ b ∧ b < a + vs.length then vs.getD (b - a) 0 else m.read b := by
  induction vs generalizing m a with
  | nil =>
    have h : ¬ (a ≤ b ∧ b < a + ([] : List Byte).length) := by simp
    rw [if_neg h]; rfl
  | cons v vs ih =>
    simp only [Memory.writeBlock, ih, Memory.read_write, List.length_cons]
    by_cases h1 : b = a
    · subst h1
      rw [if_neg (by omega), if_pos rfl, if_pos (by omega)]; simp
    · by_cases h2 : a + 1 ≤ b ∧ b < a + 1 + vs.length
      · rw [if_pos h2, if_pos (by omega)]
        obtain ⟨k, rfl⟩ : ∃ k, b = a + 1 + k := ⟨b - (a + 1), by omega⟩
        have e1 : a + 1 + k - (a + 1) = k := by omega
        have e2 : a + 1 + k - a = k + 1 := by omega
        rw [e1, e2]; simp
      · rw [if_neg h2, if_neg h1, if_neg (by omega)]

@[simp] theorem Memory.length_readBlock (m : Memory) (a n : Nat) : (m.readBlock a n).length = n := by
  induction n generalizing a with
  | zero => rfl
  | succ n ih => simp [Memory.readBlock, ih]

/-- The k-th byte of a block read is the byte at `a + k`. -/
theorem Memory.getD_readBlock (m : Memory) (a n k : Nat) (h : k < n) :
    (m.readBlock a n).getD k 0 = m.read (a + k) := by
  induction n generalizing a k with
  | zero => omega
  | succ n ih =>
    cases k with
    | zero => simp [Memory.readBlock]
    | succ k =>
      have := ih (a + 1) k (by omega)
      simp only [Memory.readBlock, List.getD_cons_succ, this]
      congr 1; omega

/-! ### The canonical form -/

/-- Every listed address is at least `b`. -/
def Memory.above (b : Nat) (m : Memory) : Prop := ∀ c ∈ m, b ≤ c.1

/-- The canonical form of a non-empty memory: a good first cell, everything after it above it. -/
theorem Memory.wf_cons (c : Host.Cell) (m : Memory) :
    Memory.wf (c :: m) = true ↔
      Memory.cellOk c = true ∧ Memory.above (c.1 + 1) m ∧ Memory.wf m = true := by
  induction m generalizing c with
  | nil => simp [Memory.wf, Memory.above]
  | cons d m ih =>
    simp only [Memory.wf, Bool.and_eq_true, decide_eq_true_eq]
    constructor
    · rintro ⟨⟨h1, h2⟩, h3⟩
      refine ⟨h1, ?_, h3⟩
      intro e he
      rcases List.mem_cons.mp he with rfl | he
      · omega
      · have := ((ih d).mp h3).2.1 e he; omega
    · rintro ⟨h1, h2, h3⟩
      exact ⟨⟨h1, by have := h2 d List.mem_cons_self; omega⟩, h3⟩

theorem Memory.above_insert {m : Memory} {b a : Nat} (v : Byte) (h : Memory.above b m) (ha : b ≤ a) :
    Memory.above b (Memory.insert a v m) := by
  induction m with
  | nil => intro c hc; simp only [Memory.insert, List.mem_singleton] at hc; subst hc; exact ha
  | cons d m ih =>
    have hd : b ≤ d.1 := h d List.mem_cons_self
    have hm : Memory.above b m := fun c hc => h c (List.mem_cons_of_mem _ hc)
    intro c hc
    simp only [Memory.insert] at hc
    split at hc
    · rcases List.mem_cons.mp hc with rfl | hc
      · exact ha
      · exact h c hc
    · split at hc
      · rcases List.mem_cons.mp hc with rfl | hc
        · exact ha
        · exact hm c hc
      · rcases List.mem_cons.mp hc with rfl | hc
        · exact hd
        · exact ih hm c hc

theorem Memory.above_erase {m : Memory} {b : Nat} (a : Nat) (h : Memory.above b m) :
    Memory.above b (Memory.erase a m) := by
  induction m with
  | nil => exact h
  | cons d m ih =>
    have hm : Memory.above b m := fun c hc => h c (List.mem_cons_of_mem _ hc)
    intro c hc
    simp only [Memory.erase] at hc
    split at hc
    · exact ih hm c hc
    · rcases List.mem_cons.mp hc with rfl | hc
      · exact h _ List.mem_cons_self
      · exact ih hm c hc

theorem Memory.wf_insert {m : Memory} {a : Nat} {v : Byte} (h : Memory.wf m = true) (ha : a < 4096)
    (hv : v ≠ unlistedByte a) : Memory.wf (Memory.insert a v m) = true := by
  have hok : Memory.cellOk (a, v) = true := by simp [Memory.cellOk, ha, hv]
  induction m with
  | nil => simpa [Memory.insert, Memory.wf] using hok
  | cons d m ih =>
    obtain ⟨h1, h2, h3⟩ := (Memory.wf_cons d m).mp h
    simp only [Memory.insert]
    split
    · rename_i hlt
      refine (Memory.wf_cons _ _).mpr ⟨hok, ?_, h⟩
      intro c hc
      rcases List.mem_cons.mp hc with rfl | hc
      · exact hlt
      · have := h2 c hc; show a + 1 ≤ c.1; omega
    · split
      · rename_i _ heq
        exact (Memory.wf_cons _ _).mpr ⟨hok, by rw [heq]; exact h2, h3⟩
      · exact (Memory.wf_cons _ _).mpr ⟨h1, Memory.above_insert v h2 (by omega), ih h3⟩

theorem Memory.wf_erase {m : Memory} (a : Nat) (h : Memory.wf m = true) :
    Memory.wf (Memory.erase a m) = true := by
  induction m with
  | nil => exact h
  | cons d m ih =>
    obtain ⟨h1, h2, h3⟩ := (Memory.wf_cons d m).mp h
    simp only [Memory.erase]
    split
    · exact ih h3
    · exact (Memory.wf_cons _ _).mpr ⟨h1, Memory.above_erase a h2, ih h3⟩

/-- A write to an address that exists keeps the canonical form. -/
theorem Memory.wf_write {m : Memory} {a : Nat} (v : Byte) (h : Memory.wf m = true) (ha : a < 4096) :
    Memory.wf (m.write a v) = true := by
  unfold Memory.write
  split
  · exact Memory.wf_erase a h
  · rename_i hv; exact Memory.wf_insert h ha hv

/-- A block write to addresses that exist keeps the canonical form. -/
theorem Memory.wf_writeBlock {m : Memory} {a : Nat} {vs : List Byte} (h : Memory.wf m = true)
    (ha : vs = [] ∨ a + vs.length ≤ 4096) : Memory.wf (m.writeBlock a vs) = true := by
  induction vs generalizing m a with
  | nil => exact h
  | cons v vs ih =>
    simp only [reduceCtorEq, List.length_cons, false_or] at ha
    exact ih (Memory.wf_write v h (by omega)) (by
      by_cases hvs : vs = []
      · exact .inl hvs
      · exact .inr (by omega))

/-! ### Building a memory (R60, R230) -/

theorem Memory.above_build (f : Nat → Byte) (a n : Nat) : Memory.above a (Memory.build f a n) := by
  induction n generalizing a with
  | zero => intro c hc; exact absurd hc List.not_mem_nil
  | succ n ih =>
    intro c hc
    simp only [Memory.build] at hc
    split at hc
    · have := ih (a + 1) c hc; omega
    · rcases List.mem_cons.mp hc with rfl | hc
      · exact Nat.le_refl _
      · have := ih (a + 1) c hc; omega

/-- A built memory is canonical. -/
theorem Memory.wf_build (f : Nat → Byte) (a n : Nat) (h : n = 0 ∨ a + n ≤ 4096) :
    Memory.wf (Memory.build f a n) = true := by
  induction n generalizing a with
  | zero => rfl
  | succ n ih =>
    have hrec := ih (a + 1) (by omega)
    simp only [Memory.build]
    split
    · exact hrec
    · rename_i hv
      refine (Memory.wf_cons _ _).mpr ⟨?_, Memory.above_build f (a + 1) n, hrec⟩
      simp only [Memory.cellOk, Bool.and_eq_true, decide_eq_true_eq, bne_iff_ne, ne_eq]
      exact ⟨by omega, hv⟩

/-- An address below every listed one reads as unlisted. -/
theorem Memory.read_of_above {m : Memory} {a : Nat} (h : Memory.above (a + 1) m) : m.read a = unlistedByte a := by
  induction m with
  | nil => rfl
  | cons c m ih =>
    have := h c List.mem_cons_self
    rw [Memory.read, if_neg (by omega)]
    exact ih fun d hd => h d (List.mem_cons_of_mem _ hd)

/-- A built memory reads as the function it was built from. -/
theorem Memory.read_build (f : Nat → Byte) (a n b : Nat) (h : a ≤ b ∧ b < a + n) :
    (Memory.build f a n).read b = f b := by
  induction n generalizing a with
  | zero => omega
  | succ n ih =>
    simp only [Memory.build]
    by_cases hb : b = a
    · subst hb
      split
      · rename_i hf; rw [hf]; exact Memory.read_of_above (Memory.above_build f (b + 1) n)
      · simp [Memory.read]
    · have hrec := ih (a + 1) (by omega)
      split
      · exact hrec
      · rw [Memory.read, if_neg hb]; exact hrec

end Sys2Proof.Machine
end

