-- ==== Sys2Proof/Laws/State.lean ====
section
/-! SUPPORT. One lemma per field per named update of the state, and the register file's read-after-write laws, so that no
later proof unfolds a record update. -/

namespace Sys2Proof.Machine

/-! ### writeV -/

@[simp] theorem State.writeV_mem (s : State) (r : Reg) (v : Byte) : (s.writeV r v).mem = s.mem := rfl
@[simp] theorem State.writeV_V (s : State) (r : Reg) (v : Byte) : (s.writeV r v).V = s.V.set r.toNat v r.isLt := rfl
@[simp] theorem State.writeV_I (s : State) (r : Reg) (v : Byte) : (s.writeV r v).I = s.I := rfl
@[simp] theorem State.writeV_pc (s : State) (r : Reg) (v : Byte) : (s.writeV r v).pc = s.pc := rfl
@[simp] theorem State.writeV_stack (s : State) (r : Reg) (v : Byte) : (s.writeV r v).stack = s.stack := rfl
@[simp] theorem State.writeV_sp (s : State) (r : Reg) (v : Byte) : (s.writeV r v).sp = s.sp := rfl
@[simp] theorem State.writeV_DT (s : State) (r : Reg) (v : Byte) : (s.writeV r v).DT = s.DT := rfl
@[simp] theorem State.writeV_ST (s : State) (r : Reg) (v : Byte) : (s.writeV r v).ST = s.ST := rfl
@[simp] theorem State.writeV_fb (s : State) (r : Reg) (v : Byte) : (s.writeV r v).fb = s.fb := rfl
@[simp] theorem State.writeV_keys (s : State) (r : Reg) (v : Byte) : (s.writeV r v).keys = s.keys := rfl
@[simp] theorem State.writeV_redraw (s : State) (r : Reg) (v : Byte) : (s.writeV r v).redraw = s.redraw := rfl
@[simp] theorem State.writeV_lastUndefined (s : State) (r : Reg) (v : Byte) : (s.writeV r v).lastUndefined = s.lastUndefined := rfl
@[simp] theorem State.writeV_halted (s : State) (r : Reg) (v : Byte) : (s.writeV r v).halted = s.halted := rfl
@[simp] theorem State.writeV_draws (s : State) (r : Reg) (v : Byte) : (s.writeV r v).draws = s.draws := rfl
@[simp] theorem State.writeV_glyphPolicy (s : State) (r : Reg) (v : Byte) : (s.writeV r v).glyphPolicy = s.glyphPolicy := rfl

/-! ### advance -/

@[simp] theorem State.advance_mem (s : State) : (s.advance).mem = s.mem := rfl
@[simp] theorem State.advance_V (s : State) : (s.advance).V = s.V := rfl
@[simp] theorem State.advance_I (s : State) : (s.advance).I = s.I := rfl
@[simp] theorem State.advance_pc (s : State) : (s.advance).pc = s.pc + 2 := rfl
@[simp] theorem State.advance_stack (s : State) : (s.advance).stack = s.stack := rfl
@[simp] theorem State.advance_sp (s : State) : (s.advance).sp = s.sp := rfl
@[simp] theorem State.advance_DT (s : State) : (s.advance).DT = s.DT := rfl
@[simp] theorem State.advance_ST (s : State) : (s.advance).ST = s.ST := rfl
@[simp] theorem State.advance_fb (s : State) : (s.advance).fb = s.fb := rfl
@[simp] theorem State.advance_keys (s : State) : (s.advance).keys = s.keys := rfl
@[simp] theorem State.advance_redraw (s : State) : (s.advance).redraw = s.redraw := rfl
@[simp] theorem State.advance_lastUndefined (s : State) : (s.advance).lastUndefined = s.lastUndefined := rfl
@[simp] theorem State.advance_halted (s : State) : (s.advance).halted = s.halted := rfl
@[simp] theorem State.advance_draws (s : State) : (s.advance).draws = s.draws := rfl
@[simp] theorem State.advance_glyphPolicy (s : State) : (s.advance).glyphPolicy = s.glyphPolicy := rfl

/-! ### skipIf -/

@[simp] theorem State.skipIf_mem (s : State) (c : Bool) : (s.skipIf c).mem = s.mem := rfl
@[simp] theorem State.skipIf_V (s : State) (c : Bool) : (s.skipIf c).V = s.V := rfl
@[simp] theorem State.skipIf_I (s : State) (c : Bool) : (s.skipIf c).I = s.I := rfl
@[simp] theorem State.skipIf_pc (s : State) (c : Bool) : (s.skipIf c).pc = s.pc + (if c then 4 else 2) := rfl
@[simp] theorem State.skipIf_stack (s : State) (c : Bool) : (s.skipIf c).stack = s.stack := rfl
@[simp] theorem State.skipIf_sp (s : State) (c : Bool) : (s.skipIf c).sp = s.sp := rfl
@[simp] theorem State.skipIf_DT (s : State) (c : Bool) : (s.skipIf c).DT = s.DT := rfl
@[simp] theorem State.skipIf_ST (s : State) (c : Bool) : (s.skipIf c).ST = s.ST := rfl
@[simp] theorem State.skipIf_fb (s : State) (c : Bool) : (s.skipIf c).fb = s.fb := rfl
@[simp] theorem State.skipIf_keys (s : State) (c : Bool) : (s.skipIf c).keys = s.keys := rfl
@[simp] theorem State.skipIf_redraw (s : State) (c : Bool) : (s.skipIf c).redraw = s.redraw := rfl
@[simp] theorem State.skipIf_lastUndefined (s : State) (c : Bool) : (s.skipIf c).lastUndefined = s.lastUndefined := rfl
@[simp] theorem State.skipIf_halted (s : State) (c : Bool) : (s.skipIf c).halted = s.halted := rfl
@[simp] theorem State.skipIf_draws (s : State) (c : Bool) : (s.skipIf c).draws = s.draws := rfl
@[simp] theorem State.skipIf_glyphPolicy (s : State) (c : Bool) : (s.skipIf c).glyphPolicy = s.glyphPolicy := rfl

/-! ### raise -/

@[simp] theorem State.raise_mem (s : State) (f : Fatal) : (s.raise f).mem = s.mem := rfl
@[simp] theorem State.raise_V (s : State) (f : Fatal) : (s.raise f).V = s.V := rfl
@[simp] theorem State.raise_I (s : State) (f : Fatal) : (s.raise f).I = s.I := rfl
@[simp] theorem State.raise_pc (s : State) (f : Fatal) : (s.raise f).pc = s.pc := rfl
@[simp] theorem State.raise_stack (s : State) (f : Fatal) : (s.raise f).stack = s.stack := rfl
@[simp] theorem State.raise_sp (s : State) (f : Fatal) : (s.raise f).sp = s.sp := rfl
@[simp] theorem State.raise_DT (s : State) (f : Fatal) : (s.raise f).DT = s.DT := rfl
@[simp] theorem State.raise_ST (s : State) (f : Fatal) : (s.raise f).ST = s.ST := rfl
@[simp] theorem State.raise_fb (s : State) (f : Fatal) : (s.raise f).fb = s.fb := rfl
@[simp] theorem State.raise_keys (s : State) (f : Fatal) : (s.raise f).keys = s.keys := rfl
@[simp] theorem State.raise_redraw (s : State) (f : Fatal) : (s.raise f).redraw = s.redraw := rfl
@[simp] theorem State.raise_lastUndefined (s : State) (f : Fatal) : (s.raise f).lastUndefined = s.lastUndefined := rfl
@[simp] theorem State.raise_halted (s : State) (f : Fatal) : (s.raise f).halted = some f := rfl
@[simp] theorem State.raise_draws (s : State) (f : Fatal) : (s.raise f).draws = s.draws := rfl
@[simp] theorem State.raise_glyphPolicy (s : State) (f : Fatal) : (s.raise f).glyphPolicy = s.glyphPolicy := rfl

/-! ### setKeys -/

@[simp] theorem State.setKeys_mem (s : State) (k : KeyVector) : (s.setKeys k).mem = s.mem := rfl
@[simp] theorem State.setKeys_V (s : State) (k : KeyVector) : (s.setKeys k).V = s.V := rfl
@[simp] theorem State.setKeys_I (s : State) (k : KeyVector) : (s.setKeys k).I = s.I := rfl
@[simp] theorem State.setKeys_pc (s : State) (k : KeyVector) : (s.setKeys k).pc = s.pc := rfl
@[simp] theorem State.setKeys_stack (s : State) (k : KeyVector) : (s.setKeys k).stack = s.stack := rfl
@[simp] theorem State.setKeys_sp (s : State) (k : KeyVector) : (s.setKeys k).sp = s.sp := rfl
@[simp] theorem State.setKeys_DT (s : State) (k : KeyVector) : (s.setKeys k).DT = s.DT := rfl
@[simp] theorem State.setKeys_ST (s : State) (k : KeyVector) : (s.setKeys k).ST = s.ST := rfl
@[simp] theorem State.setKeys_fb (s : State) (k : KeyVector) : (s.setKeys k).fb = s.fb := rfl
@[simp] theorem State.setKeys_keys (s : State) (k : KeyVector) : (s.setKeys k).keys = k := rfl
@[simp] theorem State.setKeys_redraw (s : State) (k : KeyVector) : (s.setKeys k).redraw = s.redraw := rfl
@[simp] theorem State.setKeys_lastUndefined (s : State) (k : KeyVector) : (s.setKeys k).lastUndefined = s.lastUndefined := rfl
@[simp] theorem State.setKeys_halted (s : State) (k : KeyVector) : (s.setKeys k).halted = s.halted := rfl
@[simp] theorem State.setKeys_draws (s : State) (k : KeyVector) : (s.setKeys k).draws = s.draws := rfl
@[simp] theorem State.setKeys_glyphPolicy (s : State) (k : KeyVector) : (s.setKeys k).glyphPolicy = s.glyphPolicy := rfl

/-! ### redrawClear -/

@[simp] theorem State.redrawClear_mem (s : State) : (s.redrawClear).mem = s.mem := rfl
@[simp] theorem State.redrawClear_V (s : State) : (s.redrawClear).V = s.V := rfl
@[simp] theorem State.redrawClear_I (s : State) : (s.redrawClear).I = s.I := rfl
@[simp] theorem State.redrawClear_pc (s : State) : (s.redrawClear).pc = s.pc := rfl
@[simp] theorem State.redrawClear_stack (s : State) : (s.redrawClear).stack = s.stack := rfl
@[simp] theorem State.redrawClear_sp (s : State) : (s.redrawClear).sp = s.sp := rfl
@[simp] theorem State.redrawClear_DT (s : State) : (s.redrawClear).DT = s.DT := rfl
@[simp] theorem State.redrawClear_ST (s : State) : (s.redrawClear).ST = s.ST := rfl
@[simp] theorem State.redrawClear_fb (s : State) : (s.redrawClear).fb = s.fb := rfl
@[simp] theorem State.redrawClear_keys (s : State) : (s.redrawClear).keys = s.keys := rfl
@[simp] theorem State.redrawClear_redraw (s : State) : (s.redrawClear).redraw = false := rfl
@[simp] theorem State.redrawClear_lastUndefined (s : State) : (s.redrawClear).lastUndefined = s.lastUndefined := rfl
@[simp] theorem State.redrawClear_halted (s : State) : (s.redrawClear).halted = s.halted := rfl
@[simp] theorem State.redrawClear_draws (s : State) : (s.redrawClear).draws = s.draws := rfl
@[simp] theorem State.redrawClear_glyphPolicy (s : State) : (s.redrawClear).glyphPolicy = s.glyphPolicy := rfl

/-! ### Registers -/

/-- Reading a register after writing one (R21): the value at the register written, the old value elsewhere. -/
theorem State.readV_writeV (s : State) (r q : Reg) (v : Byte) :
    (s.writeV r v).readV q = if r = q then v else s.readV q := by
  simp only [State.readV, State.writeV, Vector.getElem_set, BitVec.toNat_inj]

@[simp] theorem State.readV_writeV_same (s : State) (r : Reg) (v : Byte) : (s.writeV r v).readV r = v := by
  simp [State.readV_writeV]

theorem State.readV_writeV_ne (s : State) {r q : Reg} (v : Byte) (h : r ≠ q) :
    (s.writeV r v).readV q = s.readV q := by
  simp [State.readV_writeV, h]

/-- A register read depends on the register file alone. -/
theorem State.readV_congr {s t : State} (h : t.V = s.V) (r : Reg) : t.readV r = s.readV r := by
  simp only [State.readV, h]

@[simp] theorem State.readV_advance (s : State) (r : Reg) : s.advance.readV r = s.readV r := rfl
@[simp] theorem State.readV_skipIf (s : State) (c : Bool) (r : Reg) : (s.skipIf c).readV r = s.readV r := rfl
@[simp] theorem State.readV_raise (s : State) (f : Fatal) (r : Reg) : (s.raise f).readV r = s.readV r := rfl
@[simp] theorem State.readV_setKeys (s : State) (k : KeyVector) (r : Reg) : (s.setKeys k).readV r = s.readV r := rfl
@[simp] theorem State.readV_redrawClear (s : State) (r : Reg) : s.redrawClear.readV r = s.readV r := rfl

/-- Two register files that read the same at every register are the same. -/
theorem State.V_ext {s t : State} (h : ∀ r, t.readV r = s.readV r) : t.V = s.V := by
  apply Vector.ext
  intro k hk
  have := h (BitVec.ofNat 4 k)
  simpa [State.readV, Nat.mod_eq_of_lt hk] using this

end Sys2Proof.Machine
end

