-- ==== Sys2Proof/Laws/Ops.lean ====
section
/-! SUPPORT. One lemma per shared operation: everything it can answer. -/

namespace Sys2Proof.Machine

/-! ### Checks (20_memory.md R51 to R53) -/

/-- A block passes its checks iff every address of it does. -/
theorem checkBlock_eq_none (check : Nat → Option AccessError) (a n : Nat) :
    checkBlock check a n = none ↔ ∀ k < n, check (a + k) = none := by
  induction n generalizing a with
  | zero => simp [checkBlock]
  | succ n ih =>
    simp only [checkBlock]
    constructor
    · intro h k hk
      cases hc : check a with
      | some e => rw [hc] at h; cases h
      | none =>
        rw [hc] at h
        cases k with
        | zero => exact hc
        | succ k => have := (ih (a + 1)).mp h k (by omega); rwa [show a + (k + 1) = a + 1 + k by omega]
    · intro h
      rw [show check a = none from h 0 (by omega)]
      exact (ih (a + 1)).mpr fun k hk => by
        have := h (k + 1) (by omega); rwa [show a + 1 + k = a + (k + 1) by omega]

/-- A block check reports the error of the lowest failing address (R53). -/
theorem checkBlock_eq_some (check : Nat → Option AccessError) (a n : Nat) (e : AccessError) :
    checkBlock check a n = some e ↔
      ∃ k, k < n ∧ check (a + k) = some e ∧ ∀ j < k, check (a + j) = none := by
  induction n generalizing a with
  | zero => simp [checkBlock]
  | succ n ih =>
    simp only [checkBlock]
    cases hc : check a with
    | some e' =>
      simp only
      constructor
      · intro h; exact ⟨0, by omega, by rw [Nat.add_zero, hc]; exact h, fun j hj => by omega⟩
      · rintro ⟨k, _, h, hj⟩
        cases k with
        | zero => rwa [Nat.add_zero, hc] at h
        | succ k => have := hj 0 (by omega); rw [Nat.add_zero, hc] at this; cases this
    | none =>
      simp only [ih]
      constructor
      · rintro ⟨k, hk, h, hj⟩
        refine ⟨k + 1, by omega, by rwa [show a + (k + 1) = a + 1 + k by omega], fun j hj' => ?_⟩
        cases j with
        | zero => exact hc
        | succ j => have := hj j (by omega); rwa [show a + (j + 1) = a + 1 + j by omega]
      · rintro ⟨k, hk, h, hj⟩
        cases k with
        | zero => rw [Nat.add_zero, hc] at h; cases h
        | succ k =>
          refine ⟨k, by omega, by rwa [show a + 1 + k = a + (k + 1) by omega], fun j hj' => ?_⟩
          have := hj (j + 1) (by omega); rwa [show a + 1 + j = a + (j + 1) by omega]

theorem checkRead_eq_none (a : Nat) : checkRead a = none ↔ a < 4096 := by
  simp [checkRead]

theorem checkWrite_eq_none (p : GlyphPolicy) (a : Nat) :
    checkWrite p a = none ↔ a < 4096 ∧ ¬ (a ≤ 0x04F ∧ p = .fatal) := by
  unfold checkWrite
  split
  · simp; omega
  · split <;> simp_all

/-- A read of `n` bytes from `a` passes iff it is empty or ends below 4096. -/
theorem checkBlock_read_eq_none (a n : Nat) : checkBlock checkRead a n = none ↔ n = 0 ∨ a + n ≤ 4096 := by
  rw [checkBlock_eq_none]
  simp only [checkRead_eq_none]
  constructor
  · intro h
    cases n with
    | zero => exact .inl rfl
    | succ n => have := h n (by omega); omega
  · intro h k hk; omega

/-- A store of `n` bytes from `a` passes iff it is empty, or it ends below 4096 and does not meet a glyph table that the
policy protects. -/
theorem checkBlock_write_eq_none (p : GlyphPolicy) (a n : Nat) :
    checkBlock (checkWrite p) a n = none ↔
      n = 0 ∨ (a + n ≤ 4096 ∧ ¬ (a ≤ 0x04F ∧ p = .fatal)) := by
  rw [checkBlock_eq_none]
  simp only [checkWrite_eq_none]
  constructor
  · intro h
    cases n with
    | zero => exact .inl rfl
    | succ n =>
      have h0 := h 0 (by omega)
      have := (h n (by omega)).1
      exact .inr ⟨by omega, by simpa using h0.2⟩
  · rintro h k hk
    refine ⟨by omega, fun hk' => ?_⟩
    rcases h with h | ⟨_, h⟩
    · omega
    · exact h ⟨by omega, hk'.2⟩

/-- A read that reaches past 0xFFF reports the lowest address from 4096 up (R51, R53). -/
theorem checkBlock_read_outside {a n : Nat} (h : 0 < n) (ha : 4096 < a + n) :
    checkBlock checkRead a n = some (.outOfRange (max a 4096)) := by
  refine (checkBlock_eq_some _ _ _ _).mpr ⟨max a 4096 - a, by omega, ?_, ?_⟩
  · rw [show a + (max a 4096 - a) = max a 4096 by omega, checkRead, if_pos (by omega)]
  · intro j hj; rw [checkRead_eq_none]; omega

/-- A store of at most 16 bytes that reaches past 0xFFF reports the lowest address from 4096 up, whatever the policy:
it cannot also meet the glyph table (R209). -/
theorem checkBlock_write_outside {p : GlyphPolicy} {a n : Nat} (h : 0 < n) (ha : 4096 < a + n) (hn : n ≤ 16) :
    checkBlock (checkWrite p) a n = some (.outOfRange (max a 4096)) := by
  refine (checkBlock_eq_some _ _ _ _).mpr ⟨max a 4096 - a, by omega, ?_, ?_⟩
  · rw [show a + (max a 4096 - a) = max a 4096 by omega, checkWrite, if_pos (by omega)]
  · intro j hj; rw [checkWrite_eq_none]; omega

/-- A store from inside a protected glyph table reports its first address (R52, R53). -/
theorem checkBlock_write_glyph {a n : Nat} (h : 0 < n) (ha : a ≤ 0x04F) :
    checkBlock (checkWrite .fatal) a n = some (.glyph a) := by
  refine (checkBlock_eq_some _ _ _ _).mpr ⟨0, h, ?_, fun j hj => by omega⟩
  rw [Nat.add_zero, checkWrite, if_neg (by omega), if_pos ⟨ha, rfl⟩]

/-! ### Ends of a step -/

/-- A guarded end answers a next state: the fatal record on the state before, or the state after (R53, R200). -/
theorem State.guarded_eq (s : State) (e : Option AccessError) (w : Word) (t u : State) :
    s.guarded e w t = .next u ↔
      (∃ x, e = some x ∧ u = s.raise (x.toFatal s.pc w)) ∨ (e = none ∧ u = t) := by
  cases e <;> simp [State.guarded, eq_comm]

/-- The fetch gives the two bytes at `pc`, high byte first, where they exist (R70). -/
theorem State.fetch_eq_some (s : State) (w : Word) :
    s.fetch = some w ↔
      s.pc.toNat + 1 < 4096 ∧
        wordOfBytes (s.mem.read s.pc.toNat) (s.mem.read (s.pc.toNat + 1)) = w := by
  unfold State.fetch
  split <;> simp_all

theorem State.fetch_eq_none (s : State) : s.fetch = none ↔ 4096 ≤ s.pc.toNat + 1 := by
  unfold State.fetch
  split <;> simp <;> omega

/-! ### The stack (10_state.md R28) -/

theorem State.push_eq_none (s : State) (a : Word) : s.push a = none ↔ s.sp.val = 16 := by
  unfold State.push
  split
  · simp; omega
  · simp; omega

theorem State.push_eq_some (s : State) (a : Word) (t : State) :
    s.push a = some t ↔
      ∃ h : s.sp.val < 16,
        t = { s with stack := s.stack.set s.sp.val a h, sp := ⟨s.sp.val + 1, by omega⟩ } := by
  unfold State.push
  split
  · rename_i h; simp [h, eq_comm]
  · rename_i h; simp [h]

theorem State.pop_eq_none (s : State) : s.pop = none ↔ s.sp.val = 0 := by
  unfold State.pop
  split
  · simp; omega
  · simp; omega

theorem State.pop_eq_some (s : State) (a : Word) (t : State) :
    s.pop = some (a, t) ↔
      ∃ _h : 0 < s.sp.val,
        a = s.stack[s.sp.val - 1]'(by omega) ∧ t = { s with sp := ⟨s.sp.val - 1, by omega⟩ } := by
  unfold State.pop
  split
  · rename_i h; simp [h, eq_comm]
  · rename_i h; simp [h]

/-! ### Keys (43_keys_and_f_group.md R160, R164) -/

theorem State.keyAt_eq_none (s : State) (v : Byte) : s.keyAt v = none ↔ 16 ≤ v.toNat := by
  unfold State.keyAt
  split <;> simp <;> omega

theorem State.keyAt_of_lt (s : State) (v : Byte) (h : v.toNat < 16) : s.keyAt v = some s.keys[v.toNat] := by
  simp [State.keyAt, h]

theorem leastKeyFrom_eq_none (k : Nat) (ks : List Bool) : leastKeyFrom k ks = none ↔ ∀ b ∈ ks, b = false := by
  induction ks generalizing k with
  | nil => simp [leastKeyFrom]
  | cons b ks ih => cases b <;> simp [leastKeyFrom, ih]

theorem leastKeyFrom_eq_some (k : Nat) (ks : List Bool) (j : Nat) :
    leastKeyFrom k ks = some j ↔
      k ≤ j ∧ ks[j - k]? = some true ∧ ∀ i, i < j - k → ks[i]? = some false := by
  induction ks generalizing k with
  | nil => simp [leastKeyFrom]
  | cons b ks ih =>
    cases b with
    | true =>
      simp only [leastKeyFrom, Option.some.injEq]
      constructor
      · rintro rfl; simp
      · rintro ⟨h1, h2, h3⟩
        by_cases h : j = k
        · exact h.symm
        · have := h3 0 (by omega); simp at this
    | false =>
      simp only [leastKeyFrom, ih]
      constructor
      · rintro ⟨h1, h2, h3⟩
        refine ⟨by omega, ?_, ?_⟩
        · rw [show j - k = (j - (k + 1)) + 1 by omega]; simpa using h2
        · intro i hi
          cases i with
          | zero => rfl
          | succ i => simpa using h3 i (by omega)
      · rintro ⟨h1, h2, h3⟩
        have hjk : j ≠ k := by rintro rfl; simp at h2
        refine ⟨by omega, ?_, ?_⟩
        · rw [show j - k = (j - (k + 1)) + 1 by omega] at h2; simpa using h2
        · intro i hi; simpa using h3 (i + 1) (by omega)

/-- No key is pressed (R164). -/
theorem State.leastKey_eq_none (s : State) :
    s.leastKey = none ↔ ∀ k, (h : k < 16) → s.keys[k] = false := by
  rw [State.leastKey, leastKeyFrom_eq_none]
  constructor
  · intro h k hk
    exact h _ (by simp [Vector.mem_toList_iff])
  · intro h b hb
    obtain ⟨k, hk, rfl⟩ := Vector.getElem_of_mem (Vector.mem_toList_iff.mp hb)
    exact h k hk

/-- The least pressed key is pressed, and no key below it is (R164). -/
theorem State.leastKey_eq_some (s : State) (j : Nat) :
    s.leastKey = some j ↔
      ∃ h : j < 16, s.keys[j] = true ∧ ∀ i, (hi : i < j) → s.keys[i] = false := by
  rw [State.leastKey, leastKeyFrom_eq_some]
  simp only [Nat.zero_le, Nat.sub_zero, true_and]
  constructor
  · rintro ⟨h2, h3⟩
    have hj : j < 16 := by
      have := (List.getElem?_eq_some_iff.mp h2).1; simpa using this
    refine ⟨hj, ?_, ?_⟩
    · have := (List.getElem?_eq_some_iff.mp h2).2; simpa using this
    · intro i hi
      have := (List.getElem?_eq_some_iff.mp (h3 i hi)).2; simpa using this
  · rintro ⟨hj, h2, h3⟩
    refine ⟨?_, ?_⟩
    · rw [List.getElem?_eq_getElem (by simpa using hj)]; simpa using h2
    · intro i hi
      rw [List.getElem?_eq_getElem (by simp; omega)]; simpa using h3 i hi

/-! ### The common ALU sequence (41_alu_8xy.md R120) -/

/-- The registers after the ALU sequence: the result at `x`, else the flag at VF where there is one, else the old value;
the operands are those before the instruction. -/
theorem State.readV_alu8 (s : State) (op : Byte → Byte → Byte × Option Byte) (x y r : Reg) :
    (s.alu8 op x y).readV r =
      if x = r then (op (s.readV x) (s.readV y)).1
      else if VF = r then ((op (s.readV x) (s.readV y)).2).getD (s.readV r)
      else s.readV r := by
  simp only [State.alu8, State.readV_advance, State.readV_writeV]
  split
  · rfl
  · cases h : (op (s.readV x) (s.readV y)).2 <;> simp [State.readV_writeV]

/-- Nothing but V and `pc` changes in the ALU sequence. -/
theorem State.alu8_eq (s : State) (op : Byte → Byte → Byte × Option Byte) (x y : Reg) :
    s.alu8 op x y = { s with V := (s.alu8 op x y).V, pc := s.pc + 2 } := by
  simp only [State.alu8]
  cases (op (s.readV x) (s.readV y)).2 <;> rfl

/-! ### Register block (R171) -/

/-- The registers after loading the first `n`: memory below `n`, the old value from `n` on. -/
theorem getElem_loadRegs (m : Memory) (a : Nat) (v : Vector Byte 16) (n k : Nat) (h : k < 16) :
    (loadRegs m a v n)[k] = if k < n then m.read (a + k) else v[k] := by
  induction n with
  | zero => simp [loadRegs]
  | succ n ih =>
    simp only [loadRegs, Vector.getElem_setIfInBounds, ih]
    by_cases hk : n = k
    · subst hk; simp
    · rw [if_neg hk]
      by_cases hlt : k < n
      · rw [if_pos hlt, if_pos (by omega)]
      · rw [if_neg hlt, if_neg (by omega)]

/-- The registers after a block load: memory up to `x`, the old value above it. -/
theorem State.getElem_loadBlock (s : State) (x : Reg) (k : Nat) (h : k < 16) :
    (s.loadBlock x)[k] = if k ≤ x.toNat then s.mem.read (s.I.toNat + k) else s.V[k] := by
  rw [State.loadBlock, getElem_loadRegs]
  simp only [blockLength, Nat.lt_succ_iff]

@[simp] theorem State.length_blockBytes (s : State) (x : Reg) : (s.blockBytes x).length = x.toNat + 1 := by
  have := x.isLt
  simp only [State.blockBytes, blockLength, List.length_take, Vector.length_toList]
  omega

/-- The k-th byte of a register block is `V[k]` (R170). -/
theorem State.getD_blockBytes (s : State) (x : Reg) (k : Nat) (h : k ≤ x.toNat) :
    (s.blockBytes x).getD k 0 = s.V[k]'(by have := x.isLt; omega) := by
  have hx := x.isLt
  rw [List.getD_eq_getElem _ _ (by simp; omega)]
  simp [State.blockBytes]

/-! ### The framebuffer (R30, R144) -/

/-- Toggling a cell flips it and no other (R144). -/
theorem Framebuffer.cell_toggle (fb : Framebuffer) (i j : Nat) (hi : i < 2048) :
    Framebuffer.cell (Framebuffer.toggle fb i) j = (Framebuffer.cell fb j ^^ decide (i = j)) := by
  have hi' : i / 64 < 32 := by omega
  unfold Framebuffer.cell Framebuffer.toggle
  rw [dif_pos hi']
  by_cases hj : j / 64 < 32
  · rw [dif_pos hj, dif_pos hj, Vector.getElem_set]
    by_cases hr : i / 64 = j / 64
    · rw [if_pos hr]
      simp only [hr, BitVec.getLsbD_xor, BitVec.getLsbD_twoPow]
      congr 1
      have h1 : i % 64 < 64 := Nat.mod_lt _ (by omega)
      by_cases hij : i = j
      · subst hij; simp [h1]
      · have : ¬ i % 64 = j % 64 := by omega
        simp [hij, this]
    · rw [if_neg hr]
      have : i ≠ j := by rintro rfl; exact hr rfl
      simp [this]
  · rw [dif_neg hj, dif_neg hj]
    have : i ≠ j := by omega
    simp [this]

/-- No cell of the blank framebuffer is lit (R100). -/
@[simp] theorem Framebuffer.cell_blank (i : Nat) : Framebuffer.cell Framebuffer.blank i = false := by
  unfold Framebuffer.cell Framebuffer.blank
  split <;> simp

/-- Framebuffers with the same cells are the same. -/
theorem Framebuffer.ext_cell {a b : Framebuffer} (h : ∀ i < 2048, Framebuffer.cell a i = Framebuffer.cell b i) :
    a = b := by
  apply Vector.ext
  intro r hr
  apply BitVec.eq_of_getLsbD_eq
  intro c hc
  have := h (r * 64 + c) (by omega)
  have hd : (r * 64 + c) / 64 = r := by omega
  have hm : (r * 64 + c) % 64 = c := by omega
  simpa [Framebuffer.cell, hd, hm, hr] using this

end Sys2Proof.Machine
end

