-- ==== Sys2Proof/Laws/Draw.lean ====
section
/-! SUPPORT. The sprite draw (42_skip_index_jump_random_draw.md R144) as one list of distinct cells, each toggled once. -/

namespace Sys2Proof.Machine

/-- Toggle the listed cells one after another. -/
def drawPixels : List Nat → Canvas → Canvas
  | [], p => p
  | i :: l, p => drawPixels l (drawPixel p i)

/-- The cells of the set bits among the columns `cs` of sprite row `r` (R144). -/
def columnCells (ox oy r : Nat) (b : Byte) (cs : List Nat) : List Nat :=
  (cs.filter fun c => b.getLsbD (7 - c)).map (pixelIndex ox oy r)

/-- The cells of the set bits of the sprite rows from `r` down (R144). -/
def spriteCells (ox oy : Nat) : Nat → List Byte → List Nat
  | _, [] => []
  | r, b :: bs => columnCells ox oy r b spriteColumns ++ spriteCells ox oy (r + 1) bs

theorem drawPixels_append (l k : List Nat) (p : Canvas) :
    drawPixels (l ++ k) p = drawPixels k (drawPixels l p) := by
  induction l generalizing p with
  | nil => rfl
  | cons i l ih => exact ih (drawPixel p i)

theorem drawColumns_eq (ox oy r : Nat) (b : Byte) (cs : List Nat) (p : Canvas) :
    drawColumns ox oy r b cs p = drawPixels (columnCells ox oy r b cs) p := by
  induction cs generalizing p with
  | nil => rfl
  | cons c cs ih =>
    rw [drawColumns, ih]
    by_cases h : b.getLsbD (7 - c) = true
    · simp [columnCells, h, drawPixels]
    · simp [columnCells, h]

/-- The rows of a sprite draw toggle the sprite's cells in order. -/
theorem drawRows_eq (ox oy r : Nat) (bs : List Byte) (p : Canvas) :
    drawRows ox oy r bs p = drawPixels (spriteCells ox oy r bs) p := by
  induction bs generalizing r p with
  | nil => rfl
  | cons b bs ih => rw [drawRows, ih, drawColumns_eq, spriteCells, drawPixels_append]

/-- After toggling distinct cells, exactly those are flipped. -/
theorem cell_drawPixels (l : List Nat) (p : Canvas) (hn : l.Nodup) (hl : ∀ i ∈ l, i < 2048) (j : Nat) :
    Framebuffer.cell (drawPixels l p).1 j = (Framebuffer.cell p.1 j ^^ decide (j ∈ l)) := by
  induction l generalizing p with
  | nil => simp [drawPixels]
  | cons i l ih =>
    obtain ⟨hi, hn⟩ := List.nodup_cons.mp hn
    rw [drawPixels, ih (drawPixel p i) hn (fun k hk => hl k (List.mem_cons_of_mem _ hk))]
    rw [drawPixel, Framebuffer.cell_toggle _ _ _ (hl i List.mem_cons_self)]
    by_cases h : i = j
    · subst h; simp [hi]
    · have : (j ∈ i :: l) = (j ∈ l) := by simp [Ne.symm h]
      simp [h, this]

/-- The collision of toggling distinct cells: some one of them was lit. -/
theorem hit_drawPixels (l : List Nat) (p : Canvas) (hn : l.Nodup) (hl : ∀ i ∈ l, i < 2048) :
    (drawPixels l p).2 = (p.2 || l.any (Framebuffer.cell p.1)) := by
  induction l generalizing p with
  | nil => simp [drawPixels]
  | cons i l ih =>
    obtain ⟨hi, hn⟩ := List.nodup_cons.mp hn
    rw [drawPixels, ih (drawPixel p i) hn (fun k hk => hl k (List.mem_cons_of_mem _ hk))]
    have hrest : l.any (Framebuffer.cell (Framebuffer.toggle p.1 i)) = l.any (Framebuffer.cell p.1) := by
      rw [Bool.eq_iff_iff, List.any_eq_true, List.any_eq_true]
      refine exists_congr fun k => and_congr_right fun hk => ?_
      rw [Framebuffer.cell_toggle _ _ _ (hl i List.mem_cons_self)]
      have : i ≠ k := by rintro rfl; exact hi hk
      simp [this]
    simp only [drawPixel, hrest, List.any_cons, Bool.or_assoc]

theorem pixelIndex_lt (ox oy r c : Nat) : pixelIndex ox oy r c < 2048 := by
  unfold pixelIndex; omega

/-- Two sprite bits fall on one cell only if they are the same bit: 8 columns < 64 and 15 rows < 32 (R144). -/
theorem pixelIndex_inj {ox oy r c q d : Nat} (hr : r < 32) (hq : q < 32) (hc : c < 64) (hd : d < 64)
    (h : pixelIndex ox oy r c = pixelIndex ox oy q d) : r = q ∧ c = d := by
  unfold pixelIndex at h
  omega

/-- A cell of the sprite: a set bit falls on it. -/
theorem mem_spriteCells (ox oy r : Nat) (bs : List Byte) (j : Nat) :
    j ∈ spriteCells ox oy r bs ↔
      ∃ k, k < bs.length ∧ ∃ c, c < 8 ∧ (bs.getD k 0).getLsbD (7 - c) = true ∧
        j = pixelIndex ox oy (r + k) c := by
  induction bs generalizing r with
  | nil => simp [spriteCells]
  | cons b bs ih =>
    have hcols : ∀ c, c ∈ spriteColumns ↔ c < 8 := by
      intro c; simp only [spriteColumns, List.mem_cons, List.not_mem_nil, or_false]; omega
    simp only [spriteCells, List.mem_append, ih, columnCells, List.mem_map, List.mem_filter, hcols]
    constructor
    · rintro (⟨c, ⟨hc, hb⟩, rfl⟩ | ⟨k, hk, c, hc, hb, rfl⟩)
      · exact ⟨0, by simp, c, hc, by simpa using hb, rfl⟩
      · exact ⟨k + 1, by simpa using hk, c, hc, by simpa using hb, by congr 1; omega⟩
    · rintro ⟨k, hk, c, hc, hb, rfl⟩
      cases k with
      | zero => exact .inl ⟨c, ⟨hc, by simpa using hb⟩, rfl⟩
      | succ k =>
        exact .inr ⟨k, by simpa using hk, c, hc, by simpa using hb, by congr 1; omega⟩

theorem lt_of_mem_spriteCells {ox oy r : Nat} {bs : List Byte} {j : Nat} (h : j ∈ spriteCells ox oy r bs) :
    j < 2048 := by
  obtain ⟨k, _, c, _, _, rfl⟩ := (mem_spriteCells ox oy r bs j).mp h
  exact pixelIndex_lt ..

/-- No sprite overlaps itself (R144). -/
theorem nodup_spriteCells (ox oy r : Nat) (bs : List Byte) (h : r + bs.length ≤ 32) :
    (spriteCells ox oy r bs).Nodup := by
  induction bs generalizing r with
  | nil => exact List.nodup_nil
  | cons b bs ih =>
    simp only [List.length_cons] at h
    rw [spriteCells, List.nodup_append]
    refine ⟨?_, ih (r + 1) (by omega), ?_⟩
    · refine List.Nodup.map_on ?_ (List.Nodup.filter _ (by decide))
      intro c hc d hd hcd
      have hc' := List.mem_of_mem_filter hc
      have hd' := List.mem_of_mem_filter hd
      simp only [spriteColumns, List.mem_cons, List.not_mem_nil, or_false] at hc' hd'
      exact (pixelIndex_inj (by omega) (by omega) (by omega) (by omega) hcd).2
    · intro i hi j hj hij
      subst hij
      obtain ⟨k, hk, c, hc, _, he⟩ := (mem_spriteCells ox oy (r + 1) bs i).mp hj
      obtain ⟨d, hd, rfl⟩ := List.mem_map.mp hi
      have hd' := List.mem_of_mem_filter hd
      simp only [spriteColumns, List.mem_cons, List.not_mem_nil, or_false] at hd'
      have := (pixelIndex_inj (by omega) (by omega) (by omega) (by omega) he).1
      omega

end Sys2Proof.Machine
end

