-- ==== Sys2Proof/Laws/Encoding.lean ====
section
/-! SUPPORT. The fields of a word written as its parts (30_encoding.md R71), and the two bytes of a word (R54). -/

namespace Sys2Proof

/-! ### Extraction from an appended vector -/

/-- The low part of an appended vector. -/
theorem extract_low {p q : Nat} (a : BitVec p) (b : BitVec q) : (a ++ b).extractLsb' 0 q = b := by
  ext i hi
  simp [BitVec.getLsbD_append, hi]

/-- A field above the low part lies in the high part. -/
theorem extract_high {p q s len : Nat} (a : BitVec p) (b : BitVec q) :
    (a ++ b).extractLsb' (q + s) len = a.extractLsb' s len := by
  ext i hi
  simp only [BitVec.getElem_extractLsb', BitVec.getLsbD_append]
  rw [if_neg (by omega)]
  congr 1
  omega

/-- The whole of a vector. -/
theorem extract_all {p : Nat} (a : BitVec p) : a.extractLsb' 0 p = a := by
  ext i hi
  simp

section
variable (f x y n : BitVec 4) (kk mid : BitVec 8) (nnn : Imm12)

/-! ### Words of format family, x, y, n -/

@[simp] theorem fieldFamily_xyn : fieldFamily (f ++ x ++ y ++ n) = f :=
  (extract_high (s := 8) (f ++ x ++ y) n).trans
    ((extract_high (s := 4) (f ++ x) y).trans ((extract_high (s := 0) f x).trans (extract_all f)))

@[simp] theorem fieldX_xyn : fieldX (f ++ x ++ y ++ n) = x :=
  (extract_high (s := 4) (f ++ x ++ y) n).trans
    ((extract_high (s := 0) (f ++ x) y).trans (extract_low f x))

@[simp] theorem fieldY_xyn : fieldY (f ++ x ++ y ++ n) = y :=
  (extract_high (s := 0) (f ++ x ++ y) n).trans (extract_low (f ++ x) y)

@[simp] theorem fieldN_xyn : fieldN (f ++ x ++ y ++ n) = n := extract_low (f ++ x ++ y) n

/-! ### Words of format family, x, kk -/

@[simp] theorem fieldFamily_xkk : fieldFamily (f ++ x ++ kk) = f :=
  (extract_high (s := 4) (f ++ x) kk).trans ((extract_high (s := 0) f x).trans (extract_all f))

@[simp] theorem fieldX_xkk : fieldX (f ++ x ++ kk) = x :=
  (extract_high (s := 0) (f ++ x) kk).trans (extract_low f x)

@[simp] theorem fieldKk_xkk : fieldKk (f ++ x ++ kk) = kk := extract_low (f ++ x) kk

/-! ### Words of format family, nnn -/

@[simp] theorem fieldFamily_nnn : fieldFamily (f ++ nnn) = f :=
  (extract_high (s := 0) f nnn).trans (extract_all f)

@[simp] theorem fieldNnn_nnn : fieldNnn (f ++ nnn) = nnn := extract_low f nnn

/-! ### Words of family 0: the eight ignored bits between family and n -/

@[simp] theorem fieldFamily_mid : fieldFamily (f ++ mid ++ n) = f :=
  (extract_high (s := 8) (f ++ mid) n).trans ((extract_high (s := 0) f mid).trans (extract_all f))

@[simp] theorem fieldMid_mid : fieldMid (f ++ mid ++ n) = mid :=
  (extract_high (s := 0) (f ++ mid) n).trans (extract_low f mid)

@[simp] theorem fieldN_mid : fieldN (f ++ mid ++ n) = n := extract_low (f ++ mid) n

end

/-! ### A word is its fields, and its bytes -/

/-- Two adjacent extractions appended are one. -/
theorem extract_join (w : Word) (s p q : Nat) :
    w.extractLsb' (s + q) p ++ w.extractLsb' s q = w.extractLsb' s (p + q) := by
  ext i hi
  simp only [BitVec.getElem_append, BitVec.getElem_extractLsb']
  split
  · rfl
  · congr 1; omega

/-- A word is its family and `nnn`. -/
theorem word_eq_nnn (w : Word) : (fieldFamily w ++ fieldNnn w : Word) = w :=
  (extract_join w 0 4 12).trans (extract_all w)

/-- A word is its family, `x` and `kk`. -/
theorem word_eq_xkk (w : Word) : (fieldFamily w ++ fieldX w ++ fieldKk w : Word) = w := by
  have h : fieldFamily w ++ fieldX w = w.extractLsb' 8 8 := extract_join w 8 4 4
  rw [h]; exact (extract_join w 0 8 8).trans (extract_all w)

/-- A word is its family, `x`, `y` and `n`. -/
theorem word_eq_xyn (w : Word) : (fieldFamily w ++ fieldX w ++ fieldY w ++ fieldN w : Word) = w := by
  have h : fieldFamily w ++ fieldX w = w.extractLsb' 8 8 := extract_join w 8 4 4
  rw [h]
  have h2 : w.extractLsb' 8 8 ++ fieldY w = w.extractLsb' 4 12 := extract_join w 4 8 4
  rw [h2]; exact (extract_join w 0 12 4).trans (extract_all w)

/-- A word is its family, its bits 11:4 and `n`. -/
theorem word_eq_mid (w : Word) : (fieldFamily w ++ fieldMid w ++ fieldN w : Word) = w := by
  have h : fieldFamily w ++ fieldMid w = w.extractLsb' 4 12 := extract_join w 4 4 8
  rw [h]; exact (extract_join w 0 12 4).trans (extract_all w)

/-- Laying a word out as two bytes and reading it back (R54). -/
@[simp] theorem wordOfBytes_hi_lo (w : Word) : wordOfBytes (hiByte w) (loByte w) = w :=
  (extract_join w 0 8 8).trans (extract_all w)

/-- The value of a fetched word: `hi * 256 + lo` (R70). -/
theorem wordOfBytes_toNat (hi lo : Byte) : (wordOfBytes hi lo).toNat = hi.toNat * 256 + lo.toNat := by
  have h : (wordOfBytes hi lo).toNat = hi.toNat <<< 8 ||| lo.toNat := BitVec.toNat_append hi lo
  rw [h, ← Nat.shiftLeft_add_eq_or_of_lt lo.isLt, Nat.shiftLeft_eq]

/-! ### Masks (30_encoding.md R76): a word selects a row iff its fixed fields are the row's -/

/-- A mask on appended parts is the mask of each part. -/
theorem and_append {p q : Nat} (a c : BitVec p) (b d : BitVec q) :
    (a ++ b) &&& (c ++ d) = (a &&& c) ++ (b &&& d) := by
  ext i hi
  simp only [BitVec.getElem_and, BitVec.getElem_append]
  split <;> rfl

theorem and_ones4 (a : BitVec 4) : a &&& 0xF#4 = a := BitVec.and_allOnes

theorem and_ones8 (a : BitVec 8) : a &&& 0xFF#8 = a := BitVec.and_allOnes

theorem and_maskFamily (w : Word) : w &&& 0xF000#16 = fieldFamily w ++ 0#12 := by
  have h : (fieldFamily w ++ fieldNnn w : Word) &&& (0xF#4 ++ 0x000#12 : Word) = fieldFamily w ++ 0#12 := by
    refine (and_append (fieldFamily w) 0xF#4 (fieldNnn w) 0x000#12).trans ?_
    rw [and_ones4, BitVec.and_zero]
  rwa [word_eq_nnn] at h

theorem and_maskFamilyN (w : Word) : w &&& 0xF00F#16 = fieldFamily w ++ 0#8 ++ fieldN w := by
  have h : (fieldFamily w ++ fieldMid w ++ fieldN w : Word) &&& (0xF#4 ++ 0x00#8 ++ 0xF#4 : Word) =
      fieldFamily w ++ 0#8 ++ fieldN w := by
    refine (and_append (fieldFamily w ++ fieldMid w) (0xF#4 ++ 0x00#8) (fieldN w) 0xF#4).trans ?_
    rw [and_append, and_ones4, and_ones4, BitVec.and_zero]
  rwa [word_eq_mid] at h

theorem and_maskFamilyKk (w : Word) : w &&& 0xF0FF#16 = fieldFamily w ++ 0#4 ++ fieldKk w := by
  have h : (fieldFamily w ++ fieldX w ++ fieldKk w : Word) &&& (0xF#4 ++ 0x0#4 ++ 0xFF#8 : Word) =
      fieldFamily w ++ 0#4 ++ fieldKk w := by
    refine (and_append (fieldFamily w ++ fieldX w) (0xF#4 ++ 0x0#4) (fieldKk w) 0xFF#8).trans ?_
    rw [and_append, and_ones4, and_ones8, BitVec.and_zero]
  rwa [word_eq_xkk] at h

/-- A row with mask 0xF000 fixes the family. -/
theorem selects_family (w : Word) (f : BitVec 4) : w &&& 0xF000#16 = f ++ 0#12 ↔ fieldFamily w = f := by
  rw [and_maskFamily]
  constructor
  · intro h; simpa using congrArg fieldFamily h
  · rintro rfl; rfl

/-- A row with mask 0xF00F fixes the family and `n`. -/
theorem selects_familyN (w : Word) (f n : BitVec 4) :
    w &&& 0xF00F#16 = f ++ 0#8 ++ n ↔ fieldFamily w = f ∧ fieldN w = n := by
  rw [and_maskFamilyN]
  constructor
  · intro h; exact ⟨by simpa using congrArg fieldFamily h, by simpa using congrArg fieldN h⟩
  · rintro ⟨rfl, rfl⟩; rfl

/-- A row with mask 0xF0FF fixes the family and `kk`. -/
theorem selects_familyKk (w : Word) (f : BitVec 4) (kk : Byte) :
    w &&& 0xF0FF#16 = f ++ 0#4 ++ kk ↔ fieldFamily w = f ∧ fieldKk w = kk := by
  rw [and_maskFamilyKk]
  constructor
  · intro h; exact ⟨by simpa using congrArg fieldFamily h, by simpa using congrArg fieldKk h⟩
  · rintro ⟨rfl, rfl⟩; rfl

/-! ### Decoding -/

/-- A family that is none of 0 to E is F, the last arm of the first-level dispatch (R73). -/
theorem family_last (f : BitVec 4) (h0 : f ≠ 0x0#4) (h1 : f ≠ 0x1#4) (h2 : f ≠ 0x2#4) (h3 : f ≠ 0x3#4) (h4 : f ≠ 0x4#4)
    (h5 : f ≠ 0x5#4) (h6 : f ≠ 0x6#4) (h7 : f ≠ 0x7#4) (h8 : f ≠ 0x8#4) (h9 : f ≠ 0x9#4) (h10 : f ≠ 0xA#4)
    (h11 : f ≠ 0xB#4) (h12 : f ≠ 0xC#4) (h13 : f ≠ 0xD#4) (h14 : f ≠ 0xE#4) : f = 0xF#4 := by
  bv_omega

/-- The only word a decoder rejects it with is the word itself. -/
theorem decode_error {w : Word} {r : Reject} (h : decode w = .error r) : r = .undefinedWord w := by
  unfold decode decode0 decode8 decodeE decodeF at h
  repeat' split at h
  all_goals first
    | (injection h with h; exact h.symm)
    | injection h

end Sys2Proof
end

