-- ==== Sys2Proof/Laws/PerInstr.lean ====
section
/-! SUPPORT. The per-instruction family RowOfWord: the word of an instruction selects the row of the opcode table the
instruction belongs to (30_encoding.md R76). -/

namespace Sys2Proof.Laws.RowOfWord

/-- The instruction's row is a row of the table, and the instruction's word selects it (R76). -/
def Statement (i : Instr) : Prop := i.row ∈ opcodeTable ∧ (i.row).selects (encode i) = true

/-- What is to be shown, with the row's mask and pattern spelled out. -/
theorem statement_of {i : Instr} (h1 : i.row ∈ opcodeTable) (h2 : encode i &&& i.row.mask = i.row.pattern) :
    Statement i := ⟨h1, by simp only [Row.selects, h2, beq_self_eq_true]⟩

theorem cls (ign : BitVec 8) : Statement (.cls ign) :=
  statement_of (by simp [Instr.row, opcodeTable, rows0, rows8, rows9, rowsE]) ((selects_familyN _ 0x0#4 0x0#4).mpr (by simp [encode]))

theorem ret (ign : BitVec 8) : Statement (.ret ign) :=
  statement_of (by simp [Instr.row, opcodeTable, rows0, rows8, rows9, rowsE]) ((selects_familyN _ 0x0#4 0xE#4).mpr (by simp [encode]))

theorem jp (nnn : Imm12) : Statement (.jp nnn) :=
  statement_of (by simp [Instr.row, opcodeTable, rows0, rows8, rows9, rowsE]) ((selects_family _ 0x1#4).mpr (by simp [encode]))

theorem call (nnn : Imm12) : Statement (.call nnn) :=
  statement_of (by simp [Instr.row, opcodeTable, rows0, rows8, rows9, rowsE]) ((selects_family _ 0x2#4).mpr (by simp [encode]))

theorem seImm (x : Reg) (kk : Byte) : Statement (.seImm x kk) :=
  statement_of (by simp [Instr.row, opcodeTable, rows0, rows8, rows9, rowsE]) ((selects_family _ 0x3#4).mpr (by simp [encode]))

theorem sneImm (x : Reg) (kk : Byte) : Statement (.sneImm x kk) :=
  statement_of (by simp [Instr.row, opcodeTable, rows0, rows8, rows9, rowsE]) ((selects_family _ 0x4#4).mpr (by simp [encode]))

theorem seReg (x : Reg) (y : Reg) (ign : BitVec 4) : Statement (.seReg x y ign) :=
  statement_of (by simp [Instr.row, opcodeTable, rows0, rows8, rows9, rowsE]) ((selects_family _ 0x5#4).mpr (by simp [encode]))

theorem ldImm (x : Reg) (kk : Byte) : Statement (.ldImm x kk) :=
  statement_of (by simp [Instr.row, opcodeTable, rows0, rows8, rows9, rowsE]) ((selects_family _ 0x6#4).mpr (by simp [encode]))

theorem addImm (x : Reg) (kk : Byte) : Statement (.addImm x kk) :=
  statement_of (by simp [Instr.row, opcodeTable, rows0, rows8, rows9, rowsE]) ((selects_family _ 0x7#4).mpr (by simp [encode]))

theorem ldReg (x : Reg) (y : Reg) : Statement (.ldReg x y) :=
  statement_of (by simp [Instr.row, opcodeTable, rows0, rows8, rows9, rowsE]) ((selects_familyN _ 0x8#4 0x0#4).mpr (by simp [encode]))

theorem or (x : Reg) (y : Reg) : Statement (.or x y) :=
  statement_of (by simp [Instr.row, opcodeTable, rows0, rows8, rows9, rowsE]) ((selects_familyN _ 0x8#4 0x1#4).mpr (by simp [encode]))

theorem and (x : Reg) (y : Reg) : Statement (.and x y) :=
  statement_of (by simp [Instr.row, opcodeTable, rows0, rows8, rows9, rowsE]) ((selects_familyN _ 0x8#4 0x2#4).mpr (by simp [encode]))

theorem xor (x : Reg) (y : Reg) : Statement (.xor x y) :=
  statement_of (by simp [Instr.row, opcodeTable, rows0, rows8, rows9, rowsE]) ((selects_familyN _ 0x8#4 0x3#4).mpr (by simp [encode]))

theorem addReg (x : Reg) (y : Reg) : Statement (.addReg x y) :=
  statement_of (by simp [Instr.row, opcodeTable, rows0, rows8, rows9, rowsE]) ((selects_familyN _ 0x8#4 0x4#4).mpr (by simp [encode]))

theorem sub (x : Reg) (y : Reg) : Statement (.sub x y) :=
  statement_of (by simp [Instr.row, opcodeTable, rows0, rows8, rows9, rowsE]) ((selects_familyN _ 0x8#4 0x5#4).mpr (by simp [encode]))

theorem shr (x : Reg) (y : Reg) : Statement (.shr x y) :=
  statement_of (by simp [Instr.row, opcodeTable, rows0, rows8, rows9, rowsE]) ((selects_familyN _ 0x8#4 0x6#4).mpr (by simp [encode]))

theorem subn (x : Reg) (y : Reg) : Statement (.subn x y) :=
  statement_of (by simp [Instr.row, opcodeTable, rows0, rows8, rows9, rowsE]) ((selects_familyN _ 0x8#4 0x7#4).mpr (by simp [encode]))

theorem shl (x : Reg) (y : Reg) : Statement (.shl x y) :=
  statement_of (by simp [Instr.row, opcodeTable, rows0, rows8, rows9, rowsE]) ((selects_familyN _ 0x8#4 0xE#4).mpr (by simp [encode]))

theorem sneReg (x : Reg) (y : Reg) (ign : BitVec 4) : Statement (.sneReg x y ign) :=
  statement_of (by simp [Instr.row, opcodeTable, rows0, rows8, rows9, rowsE]) ((selects_family _ 0x9#4).mpr (by simp [encode]))

theorem ldI (nnn : Imm12) : Statement (.ldI nnn) :=
  statement_of (by simp [Instr.row, opcodeTable, rows0, rows8, rows9, rowsE]) ((selects_family _ 0xA#4).mpr (by simp [encode]))

theorem jpV0 (nnn : Imm12) : Statement (.jpV0 nnn) :=
  statement_of (by simp [Instr.row, opcodeTable, rows0, rows8, rows9, rowsE]) ((selects_family _ 0xB#4).mpr (by simp [encode]))

theorem rnd (x : Reg) (kk : Byte) : Statement (.rnd x kk) :=
  statement_of (by simp [Instr.row, opcodeTable, rows0, rows8, rows9, rowsE]) ((selects_family _ 0xC#4).mpr (by simp [encode]))

theorem drw (x : Reg) (y : Reg) (n : BitVec 4) : Statement (.drw x y n) :=
  statement_of (by simp [Instr.row, opcodeTable, rows0, rows8, rows9, rowsE]) ((selects_family _ 0xD#4).mpr (by simp [encode]))

theorem skp (x : Reg) : Statement (.skp x) :=
  statement_of (by simp [Instr.row, opcodeTable, rows0, rows8, rows9, rowsE]) ((selects_familyKk _ 0xE#4 0x9E#8).mpr (by simp [encode]))

theorem sknp (x : Reg) : Statement (.sknp x) :=
  statement_of (by simp [Instr.row, opcodeTable, rows0, rows8, rows9, rowsE]) ((selects_familyKk _ 0xE#4 0xA1#8).mpr (by simp [encode]))

theorem ldVxDt (x : Reg) : Statement (.ldVxDt x) :=
  statement_of (by simp [Instr.row, opcodeTable, rows0, rows8, rows9, rowsE]) ((selects_familyKk _ 0xF#4 0x07#8).mpr (by simp [encode]))

theorem ldVxK (x : Reg) : Statement (.ldVxK x) :=
  statement_of (by simp [Instr.row, opcodeTable, rows0, rows8, rows9, rowsE]) ((selects_familyKk _ 0xF#4 0x0A#8).mpr (by simp [encode]))

theorem ldDtVx (x : Reg) : Statement (.ldDtVx x) :=
  statement_of (by simp [Instr.row, opcodeTable, rows0, rows8, rows9, rowsE]) ((selects_familyKk _ 0xF#4 0x15#8).mpr (by simp [encode]))

theorem ldStVx (x : Reg) : Statement (.ldStVx x) :=
  statement_of (by simp [Instr.row, opcodeTable, rows0, rows8, rows9, rowsE]) ((selects_familyKk _ 0xF#4 0x18#8).mpr (by simp [encode]))

theorem addIVx (x : Reg) : Statement (.addIVx x) :=
  statement_of (by simp [Instr.row, opcodeTable, rows0, rows8, rows9, rowsE]) ((selects_familyKk _ 0xF#4 0x1E#8).mpr (by simp [encode]))

theorem ldFVx (x : Reg) : Statement (.ldFVx x) :=
  statement_of (by simp [Instr.row, opcodeTable, rows0, rows8, rows9, rowsE]) ((selects_familyKk _ 0xF#4 0x29#8).mpr (by simp [encode]))

theorem ldBVx (x : Reg) : Statement (.ldBVx x) :=
  statement_of (by simp [Instr.row, opcodeTable, rows0, rows8, rows9, rowsE]) ((selects_familyKk _ 0xF#4 0x33#8).mpr (by simp [encode]))

theorem ldMemVx (x : Reg) : Statement (.ldMemVx x) :=
  statement_of (by simp [Instr.row, opcodeTable, rows0, rows8, rows9, rowsE]) ((selects_familyKk _ 0xF#4 0x55#8).mpr (by simp [encode]))

theorem ldVxMem (x : Reg) : Statement (.ldVxMem x) :=
  statement_of (by simp [Instr.row, opcodeTable, rows0, rows8, rows9, rowsE]) ((selects_familyKk _ 0xF#4 0x65#8).mpr (by simp [encode]))

end Sys2Proof.Laws.RowOfWord
end

