-- ==== Sys2Proof/Laws/Step.lean ====
section
/-! SUPPORT. Everything a step can do (30_encoding.md R81), and the small laws of ticks and frames. -/

namespace Sys2Proof.Machine

/-- Everything a step can do: nothing while halted; FetchOutOfRange; the undefined handler; one routine (R81). -/
theorem step_eq_next {s t : State} (h : step s = .next t) :
    (s.halted ≠ none ∧ t = s) ∨
    (s.halted = none ∧ s.fetch = none ∧ t = s.raise (.fetchOutOfRange s.pc)) ∨
    (∃ w, s.halted = none ∧ s.fetch = some w ∧ decode w = .error (.undefinedWord w) ∧
      t = { s with lastUndefined := some w, pc := s.pc + 2 }) ∨
    (∃ w i, s.halted = none ∧ s.fetch = some w ∧ decode w = .ok i ∧ exec i s = .next t) := by
  unfold step at h
  split at h
  · rename_i f hf; cases h; exact .inl ⟨by simp [hf], rfl⟩
  · rename_i hn
    split at h
    · rename_i hf; cases h; exact .inr (.inl ⟨hn, hf, rfl⟩)
    · rename_i w hf
      split at h
      · rename_i i hd; exact .inr (.inr (.inr ⟨w, i, hn, hf, hd, h⟩))
      · rename_i r hd
        cases h
        exact .inr (.inr (.inl ⟨w, hn, hf, by rw [hd, decode_error hd], rfl⟩))

/-! ### Ticks (60_exceptions.md R210) -/

/-- A count goes down by one and stops at 0. -/
@[simp] theorem countDown_toNat (t : Byte) : (countDown t).toNat = t.toNat - 1 := by
  unfold countDown
  split
  · rename_i h; simp [h]
  · rename_i h
    have h0 : t.toNat ≠ 0 := fun h' => h (BitVec.eq_of_toNat_eq (by simpa using h'))
    have := t.isLt
    rw [BitVec.toNat_sub]
    simp
    omega

theorem State.tick_of_running {s : State} (h : s.halted = none) :
    s.tick = { s with DT := countDown s.DT, ST := countDown s.ST } := by
  simp [State.tick, h]

theorem State.tick_of_halted {s : State} (h : s.halted ≠ none) : s.tick = s := by
  cases hh : s.halted with
  | none => exact absurd hh h
  | some f => simp [State.tick, hh]

/-! ### Reset (70_reset_and_hazards.md R230) -/

/-- Memory after reset reads as the reset bytes (R39, R60). -/
theorem State.read_resetWith (s : State) (p : Params) (image : List Byte) (a : Nat) (h : a < 4096) :
    (s.resetWith p image).mem.read a = resetByte p image a :=
  Memory.read_build (resetByte p image) 0 4096 a ⟨Nat.zero_le a, by omega⟩

/-! ### Frames -/

theorem Unchanged.refl (l : List Field) (s : State) : Unchanged l s s := by
  intro f _
  cases f <;> first | rfl | (intro _; rfl)

theorem Unchanged.trans {l : List Field} {s t u : State} (h : Unchanged l s t) (k : Unchanged l t u) :
    Unchanged l s u := by
  intro f hf
  have a := h f hf
  have b := k f hf
  cases f <;> first | exact b.trans a | (intro x; exact (b x).trans (a x))

theorem Unchanged.mono {l k : List Field} {s t : State} (h : Unchanged l s t) (hl : ∀ f ∈ l, f ∈ k) :
    Unchanged k s t := fun f hf => h f fun hf' => hf (hl f hf')

end Sys2Proof.Machine
end

