-- ==== Sys2Proof/Tests/Slice0.lean ====
section
/-! SUPPORT. The model's own tests: checks of well-formedness, decoding of words written out from the opcode table, one
step each against the vectors of 95_test_vectors.md, and for every statement a state that meets its hypotheses. -/

namespace Sys2Proof.Tests
open Sys2Proof.Machine

/-! ### Helpers -/

/-- The next state of a result, where there is one. -/
def nextOf : Result → Option State
  | .next t => some t
  | .fault _ => none
  | .refused _ => none

/-- A view of the state an instruction leaves. -/
def after {α : Type} (r : Result) (f : State → α) : Option α := (nextOf r).map f

/-- The reset state with two registers set. -/
def regs (x : Reg) (a : Byte) (y : Reg) (b : Byte) : State := (State.reset.writeV x a).writeV y b

/-- The reset state with `I` and the bytes from it set. -/
def memAt (i : Word) (bs : List Byte) : State :=
  { State.reset with I := i, mem := State.reset.mem.writeBlock i.toNat bs }

/-- The reset state with the word `w` at `pc`. -/
def wordAt (w : Nat) : State := State.reset.withFetchWord 16 w

/-- The reset state with keys `a` and `b` held. -/
def keysAB (a b : Nat) : State :=
  { State.reset with keys := (State.reset.keys.setIfInBounds a true).setIfInBounds b true }

/-- The reset state with `sp` entries pushed, all `a`. -/
def stacked (sp : Fin 17) (a : Word) : State := { State.reset with sp := sp, stack := Vector.replicate 16 a }

/-- A framebuffer with the listed cells lit. -/
def lit (l : List Nat) : Framebuffer := l.foldl Framebuffer.toggle Framebuffer.blank

/-- A halted machine. -/
def haltedState : State := { State.reset with halted := some (.fetchOutOfRange 0x0FFF), ST := 1, DT := 3 }

/-! ### Well-formedness: an ill-formed term for each check -/

theorem test_wordWellFormed_family0 : wordWellFormed 0x0123 = false := by decide
theorem test_wordWellFormed_family8 : wordWellFormed 0x8008 = false := by decide
theorem test_wordWellFormed_familyE : wordWellFormed 0xE5A2 = false := by decide
theorem test_wordWellFormed_familyF : wordWellFormed 0xF0FF = false := by decide
theorem test_wordWellFormed_zero : wordWellFormed 0x0000 = true := by decide
theorem test_imageWellFormed_long : imageWellFormed (List.replicate 3585 0) = false := by
  rw [imageWellFormed, List.length_replicate]; decide
theorem test_imageWellFormed_full : imageWellFormed (List.replicate 3584 0) = true := by
  rw [imageWellFormed, List.length_replicate]; decide
theorem test_memory_unsorted : Memory.wf [(0x300, 1), (0x200, 1)] = false := by decide
theorem test_memory_repeat : Memory.wf [(0x300, 1), (0x300, 2)] = false := by decide
theorem test_memory_default : Memory.wf [(0x300, 0)] = false := by decide
theorem test_memory_outside : Memory.wf [(0x1000, 1)] = false := by decide
theorem test_memory_good : Memory.wf [(0x200, 1), (0x300, 1)] = true := by decide

/-! ### Decoding: one word per constructor, written out from R76 -/

theorem test_decode_cls : decode 0x00E0 = .ok (.cls 0x0E) := by decide
theorem test_decode_ret : decode 0x00EE = .ok (.ret 0x0E) := by decide
theorem test_decode_jp : decode 0x1234 = .ok (.jp 0x234) := by decide
theorem test_decode_call : decode 0x2300 = .ok (.call 0x300) := by decide
theorem test_decode_seImm : decode 0x3342 = .ok (.seImm 3 0x42) := by decide
theorem test_decode_sneImm : decode 0x4300 = .ok (.sneImm 3 0x00) := by decide
theorem test_decode_seReg : decode 0x5120 = .ok (.seReg 1 2 0) := by decide
theorem test_decode_ldImm : decode 0x6A05 = .ok (.ldImm 0xA 0x05) := by decide
theorem test_decode_addImm : decode 0x70F0 = .ok (.addImm 0 0xF0) := by decide
theorem test_decode_ldReg : decode 0x8F10 = .ok (.ldReg 0xF 1) := by decide
theorem test_decode_or : decode 0x8011 = .ok (.or 0 1) := by decide
theorem test_decode_and : decode 0x8012 = .ok (.and 0 1) := by decide
theorem test_decode_xor : decode 0x8013 = .ok (.xor 0 1) := by decide
theorem test_decode_addReg : decode 0x80F4 = .ok (.addReg 0 0xF) := by decide
theorem test_decode_sub : decode 0x8AB5 = .ok (.sub 0xA 0xB) := by decide
theorem test_decode_shr : decode 0x82F6 = .ok (.shr 2 0xF) := by decide
theorem test_decode_subn : decode 0x8F17 = .ok (.subn 0xF 1) := by decide
theorem test_decode_shl : decode 0x830E = .ok (.shl 3 0) := by decide
theorem test_decode_sneReg : decode 0x912F = .ok (.sneReg 1 2 0xF) := by decide
theorem test_decode_ldI : decode 0xA300 = .ok (.ldI 0x300) := by decide
theorem test_decode_jpV0 : decode 0xBF80 = .ok (.jpV0 0xF80) := by decide
theorem test_decode_rnd : decode 0xC30F = .ok (.rnd 3 0x0F) := by decide
theorem test_decode_drw : decode 0xD123 = .ok (.drw 1 2 3) := by decide
theorem test_decode_skp : decode 0xE59E = .ok (.skp 5) := by decide
theorem test_decode_sknp : decode 0xE5A1 = .ok (.sknp 5) := by decide
theorem test_decode_ldVxDt : decode 0xF307 = .ok (.ldVxDt 3) := by decide
theorem test_decode_ldVxK : decode 0xF10A = .ok (.ldVxK 1) := by decide
theorem test_decode_ldDtVx : decode 0xF015 = .ok (.ldDtVx 0) := by decide
theorem test_decode_ldStVx : decode 0xF218 = .ok (.ldStVx 2) := by decide
theorem test_decode_addIVx : decode 0xF11E = .ok (.addIVx 1) := by decide
theorem test_decode_ldFVx : decode 0xF429 = .ok (.ldFVx 4) := by decide
theorem test_decode_ldBVx : decode 0xF033 = .ok (.ldBVx 0) := by decide
theorem test_decode_ldMemVx : decode 0xF255 = .ok (.ldMemVx 2) := by decide
theorem test_decode_ldVxMem : decode 0xFF65 = .ok (.ldVxMem 0xF) := by decide

/-- Byte order (R54): the byte at the lower address is bits 15:8. -/
theorem test_decodeBytes_order : decodeBytes [0xD1, 0x23, 0x77] = .ok (.drw 1 2 3, [0x77]) := by decide
theorem test_decodeBytes_short : decodeBytes [0xD1] = .error .tooShort := by decide
theorem test_decodeTableWord : decodeTableWord 16 0xD123 = some (.drw 1 2 3) := by decide

/-! ### Families 0 to 7 (95_test_vectors.md section 2.2) -/

theorem test_cls : after (exec (.cls 0x0E) { State.reset with fb := lit [5, 2047] })
    (fun t => (t.fb, t.redraw, t.pc)) = some (Framebuffer.blank, true, 0x202) := by decide
theorem test_ret : after (exec (.ret 0xFF) (stacked 1 0x250)) (fun t => (t.pc, t.sp)) = some (0x252, 0) := by decide
theorem test_ret_underflow : after (exec (.ret 0x0E) State.reset) (fun t => (t.halted, t.pc)) =
    some (some (.stackUnderflow 0x200 0x00EE), 0x200) := by decide
theorem test_jp : after (exec (.jp 0xFFF) State.reset) (fun t => t.pc) = some 0xFFF := by decide
theorem test_call : after (exec (.call 0x300) (stacked 15 0)) (fun t => (t.stack[15], t.sp, t.pc)) =
    some (0x200, 16, 0x300) := by decide
theorem test_call_overflow : after (exec (.call 0x300) (stacked 16 0)) (fun t => (t.halted, t.sp)) =
    some (some (.stackOverflow 0x200 0x2300), 16) := by decide
theorem test_seImm : after (exec (.seImm 3 0x42) (regs 3 0x42 4 0)) (fun t => t.pc) = some 0x204 := by decide
theorem test_sneImm : after (exec (.sneImm 3 0x42) (regs 3 0x42 4 0)) (fun t => t.pc) = some 0x202 := by decide
theorem test_seReg : after (exec (.seReg 1 2 0) (regs 1 7 2 8)) (fun t => t.pc) = some 0x202 := by decide
theorem test_ldImm_VF : after (exec (.ldImm 0xF 0xAB) State.reset) (fun t => t.readV VF) = some 0xAB := by decide
theorem test_addImm_noFlag : after (exec (.addImm 0 0xF0) (regs 0 0x10 VF 0xAA))
    (fun t => (t.readV 0, t.readV VF)) = some (0x00, 0xAA) := by decide
theorem test_addImm_VF : after (exec (.addImm 0xF 0xF0) (regs 0 0 VF 0x20)) (fun t => t.readV VF) = some 0x10 := by
  decide

/-! ### Family 8 (section 2.3) -/

theorem test_ldReg : after (exec (.ldReg 0xF 1) (regs 1 0x33 VF 1)) (fun t => t.readV VF) = some 0x33 := by decide
theorem test_or : after (exec (.or 0 1) ((regs 0 0x0F 1 0xF0).writeV VF 0xAA)) (fun t => (t.readV 0, t.readV VF)) =
    some (0xFF, 0xAA) := by decide
theorem test_and : after (exec (.and 0 1) ((regs 0 0x3C 1 0x0F).writeV VF 0xAA)) (fun t => (t.readV 0, t.readV VF)) =
    some (0x0C, 0xAA) := by decide
theorem test_xor : after (exec (.xor 0 1) ((regs 0 0xFF 1 0x0F).writeV VF 0xAA)) (fun t => (t.readV 0, t.readV VF)) =
    some (0xF0, 0xAA) := by decide
theorem test_addReg_VF_dest : after (exec (.addReg 0xF 1) (regs VF 0xFF 1 2)) (fun t => t.readV VF) = some 1 := by decide
theorem test_addReg_VF_source : after (exec (.addReg 0 0xF) (regs 0 0x10 VF 1)) (fun t => (t.readV 0, t.readV VF)) =
    some (0x11, 0) := by decide
theorem test_sub_equal : after (exec (.sub 0 1) (regs 0 5 1 5)) (fun t => (t.readV 0, t.readV VF)) = some (0, 0) := by
  decide
theorem test_sub_wraps : after (exec (.sub 0 1) (regs 0 1 1 2)) (fun t => (t.readV 0, t.readV VF)) = some (0xFF, 0) := by
  decide
theorem test_shr : after (exec (.shr 2 0xF) (regs 2 3 VF 0xAA)) (fun t => (t.readV 2, t.readV VF)) = some (1, 1) := by
  decide
theorem test_shr_VF : after (exec (.shr 0xF 0) (regs 0 0 VF 3)) (fun t => t.readV VF) = some 1 := by decide
theorem test_subn : after (exec (.subn 0 1) (regs 0 3 1 5)) (fun t => (t.readV 0, t.readV VF)) = some (2, 1) := by decide
theorem test_subn_wraps : after (exec (.subn 0 1) (regs 0 5 1 3)) (fun t => (t.readV 0, t.readV VF)) =
    some (0xFE, 0) := by decide
theorem test_shl : after (exec (.shl 3 0) (regs 3 0x81 0 0)) (fun t => (t.readV 3, t.readV VF)) = some (2, 1) := by
  decide
theorem test_shl_VF : after (exec (.shl 0xF 0) (regs 0 0 VF 0xC1)) (fun t => t.readV VF) = some 0x82 := by decide

/-! ### Families 9 to D (section 2.4) -/

theorem test_sneReg : after (exec (.sneReg 1 2 0) (regs 1 1 2 2)) (fun t => t.pc) = some 0x204 := by decide
theorem test_ldI : after (exec (.ldI 0xFFF) State.reset) (fun t => t.I) = some 0x0FFF := by decide
theorem test_jpV0 : after (exec (.jpV0 0xF80) (regs 0 0x90 1 0)) (fun t => t.pc) = some 0x1010 := by decide
theorem test_rnd : after (exec (.rnd 3 0x0F) State.reset) (fun t => (t.pc, t.draws)) = some (0x202, 1) := by decide
theorem test_rnd_mask0 (t : State) (h : exec (.rnd 3 0x00) State.reset = .next t) : t.readV 3 = 0 := by
  injection h with h
  rw [← h]
  show (State.writeV _ 3 _).readV 3 = 0
  simp
theorem test_drw_wraps : after (exec (.drw 0 1 2) ((memAt 0x300 [0xC0, 0xC0]).writeV 0 63 |>.writeV 1 31))
    (fun t => (t.fb, t.readV VF)) = some (lit [0, 63, 1984, 2047], 0) := by decide
theorem test_drw_collision : after (exec (.drw 0 1 1) { memAt 0x300 [0xF0] with fb := lit [2, 3, 10] })
    (fun t => (t.fb, t.readV VF, t.redraw)) = some (lit [0, 1, 10], 1, true) := by decide
theorem test_drw_digit0 : after (exec (.drw 0 1 5) State.reset) (fun t => t.fb) =
    some (lit [0, 1, 2, 3, 64, 67, 128, 131, 192, 195, 256, 257, 258, 259]) := by decide
theorem test_drw_VF_origin : after (exec (.drw 0xF 0 1) ((memAt 0x300 [0x80]).writeV VF 5))
    (fun t => (t.fb, t.readV VF)) = some (lit [5], 0) := by decide
theorem test_drw_outside : after (exec (.drw 0 1 2) { memAt 0xFFF [] with fb := lit [9] })
    (fun t => (t.halted, t.fb, t.redraw)) =
      some (some (.memoryOutOfRange 0x200 0xD012 0x1000), lit [9], false) := by decide

/-! ### Families E and F (section 2.5) -/

theorem test_skp : after (exec (.skp 5) ((keysAB 0xA 0xA).writeV 5 0xA)) (fun t => t.pc) = some 0x204 := by decide
theorem test_skp_index : after (exec (.skp 5) (regs 5 0x10 0 0)) (fun t => (t.halted, t.pc)) =
    some (some (.keyIndexOutOfRange 0x200 0xE59E 0x10), 0x200) := by decide
theorem test_sknp : after (exec (.sknp 5) (regs 5 0x0A 0 0)) (fun t => t.pc) = some 0x204 := by decide
theorem test_ldVxDt : after (exec (.ldVxDt 3) { State.reset with DT := 0x3C }) (fun t => (t.readV 3, t.DT)) =
    some (0x3C, 0x3C) := by decide
theorem test_ldVxK_none : nextOf (exec (.ldVxK 1) State.reset) = some State.reset := by decide
theorem test_ldVxK_least : after (exec (.ldVxK 1) (keysAB 3 9)) (fun t => (t.readV 1, t.pc)) = some (3, 0x202) := by
  decide
theorem test_ldDtVx : after (exec (.ldDtVx 0) (regs 0 0x3C 1 0)) (fun t => (t.DT, t.ST)) = some (0x3C, 0) := by decide
theorem test_ldStVx : after (exec (.ldStVx 2) (regs 2 1 1 0)) (fun t => (t.DT, t.ST)) = some (0, 1) := by decide
theorem test_addIVx_wraps : after (exec (.addIVx 1) { regs 1 2 2 0 with I := 0xFFFF }) (fun t => (t.I, t.readV VF)) =
    some (0x0001, 1) := by decide
theorem test_addIVx_VF : after (exec (.addIVx 0xF) { regs VF 5 2 0 with I := 0x0010 }) (fun t => (t.I, t.readV VF)) =
    some (0x0010, 0) := by decide
theorem test_ldFVx : after (exec (.ldFVx 4) (regs 4 0xFF 0 0)) (fun t => t.I) = some 0x04FB := by decide
theorem test_ldBVx : after (exec (.ldBVx 0) ((memAt 0x300 []).writeV 0 0xFE)) (fun t => t.mem.readBlock 0x300 3) =
    some [2, 5, 4] := by decide
theorem test_ldBVx_policyWrite : after (exec (.ldBVx 0) { (memAt 0x04E []).writeV 0 0x7B with glyphPolicy := .write })
    (fun t => (t.mem.readBlock 0x04E 3, t.pc)) = some ([1, 2, 3], 0x202) := by decide
theorem test_ldMemVx : after (exec (.ldMemVx 2) { (regs 0 1 1 2).writeV 2 3 with I := 0x300 })
    (fun t => (t.mem.readBlock 0x300 4, t.I)) = some ([1, 2, 3, 0], 0x0303) := by decide
theorem test_ldMemVx_outside : after (exec (.ldMemVx 0xF) (memAt 0x0FF1 [])) (fun t => (t.halted, t.I)) =
    some (some (.memoryOutOfRange 0x200 0xFF55 0x1000), 0x0FF1) := by decide
theorem test_ldVxMem : after (exec (.ldVxMem 2) (memAt 0x300 [2, 5, 4, 9]))
    (fun t => (t.readV 0, t.readV 1, t.readV 2, t.readV 3, t.I)) = some (2, 5, 4, 0, 0x0303) := by decide
theorem test_ldVxMem_outside : after (exec (.ldVxMem 1) (memAt 0x0FFF [7])) (fun t => (t.readV 0, t.halted)) =
    some (0, some (.memoryOutOfRange 0x200 0xF165 0x1000)) := by decide

/-! ### Step, ticks, reset (sections 2.6, 2.7, 3) -/

theorem test_step_undefined : after (step (wordAt 0x8008)) (fun t => (t.pc, t.lastUndefined)) =
    some (0x202, some 0x8008) := by decide
theorem test_step_fetch_last : after (step { State.reset with pc := 0xFFE }) (fun t => (t.pc, t.redraw)) =
    some (0x1000, true) := by decide
theorem test_step_fetch_outside : after (step { State.reset with pc := 0xFFF }) (fun t => t.halted) =
    some (some (.fetchOutOfRange 0xFFF)) := by decide
theorem test_step_odd_pc : after (step { memAt 0x301 [0x12, 0x34] with pc := 0x301 }) (fun t => t.pc) = some 0x234 := by
  decide
theorem test_step_halted : nextOf (step haltedState) = some haltedState := by decide
theorem test_withFetchWord : after (step (wordAt 0x6A05)) (fun t => (t.readV 0xA, t.pc)) = some (0x05, 0x202) := by
  decide
theorem test_outputs_undefined : stepOutputs (wordAt 0x8008) = [.diag 0x200 0x8008, .undefinedOpcode 0x200 0x8008] := by
  decide
theorem test_outputs_fatal : stepOutputs (wordAt 0x00EE) =
    [.diag 0x200 0x00EE, .fatal (.stackUnderflow 0x200 0x00EE)] := by decide
theorem test_tick_toneEnd : tickOutputs { State.reset with ST := 1 } = [.toneEnd] := by decide
theorem test_tick_floor : (State.tick { State.reset with ST := 2, DT := 0 }).DT = 0 := by decide
theorem test_tick_halted : haltedState.tick = haltedState ∧ tickOutputs haltedState = [] := by decide

/-- Source property 8 and the schedule of P5 in small: a waiting LD_VX_K with a tick between its steps. -/
theorem test_wait_schedule : after (runSchedule defaultParams [.step, .tick, .step] { wordAt 0xF20A with DT := 5, ST := 1 })
    (fun t => (t.pc, t.DT, t.ST)) = some (0x200, 4, 0) := by decide

/-- Reset(image) with the default parameters leaves what `State.reset` says, on any image's first byte (R60). -/
theorem test_reset_first_byte (s : State) (b : Byte) : (s.resetWith defaultParams [b]).mem.read 0x200 = b := by
  rw [State.read_resetWith _ _ _ _ (by omega)]
  simp [resetByte]

/-- The memory of `State.reset` reads as the default parameters say: glyph table, low RAM, zeros (R39). -/
theorem test_reset_memory : State.reset.mem.readBlock 0 5 = [0xF0, 0x90, 0x90, 0x90, 0xF0] ∧
    State.reset.mem.readBlock 0x4B 6 = [0xF0, 0x80, 0xF0, 0x80, 0x80, 0x00] := by decide

/-! ### Witnesses: for every statement with hypotheses, a state and operands that meet them all -/

theorem witness_EncodeDecode : decode 0x5121 = .ok (.seReg 1 2 1) := by decide

theorem witness_DispatchByTable : (⟨"RET", 0x000E, 0xF00F⟩ : Row) ∈ opcodeTable ∧
    (0x0FFE : Word) &&& 0xF00F = 0x000E := by decide

theorem witness_StepRunsDecoded : (wordAt 0x6A05).halted = none ∧ (wordAt 0x6A05).fetch = some 0x6A05 ∧
    decode 0x6A05 = .ok (.ldImm 0xA 0x05) := by decide

theorem witness_FetchWord_fails : ({ State.reset with pc := 0xFFF } : State).halted = none ∧
    4096 ≤ ({ State.reset with pc := 0xFFF } : State).pc.toNat + 1 := by decide

theorem witness_FetchWord_reads : ({ State.reset with pc := 0xFFE } : State).pc.toNat + 1 < 4096 := by decide

theorem witness_UndefinedHandler : (wordAt 0x8008).halted = none ∧ (wordAt 0x8008).fetch = some 0x8008 ∧
    decode 0x8008 = .error (.undefinedWord 0x8008) := by decide

theorem witness_FatalIsPrecise_raises : ∃ t, step (wordAt 0x00EE) = .next t ∧ t.halted ≠ (wordAt 0x00EE).halted :=
  ⟨(wordAt 0x00EE).raise (.stackUnderflow 0x200 0x00EE), rfl, by decide⟩

theorem witness_FatalIsPrecise_halted : haltedState.halted ≠ none := by decide

theorem witness_FatalIsPrecise_reset : ∃ t, haltedState.halted ≠ none ∧
    transact defaultParams haltedState (.reset []) = .next t ∧ t.halted = none :=
  ⟨_, by decide, rfl, rfl⟩

theorem witness_FatalCauses : ∃ t, (wordAt 0x00EE).halted = none ∧ step (wordAt 0x00EE) = .next t :=
  ⟨(wordAt 0x00EE).raise (.stackUnderflow 0x200 0x00EE), by decide, rfl⟩

theorem witness_SelectedBy : (0x0FFE : Word) &&& 0xF00F = 0x000E ∧ (0x912F : Word) &&& 0xF000 = 0x9000 ∧
    (0xF065 : Word) &&& 0xF0FF = 0xF065 := by decide

theorem witness_RetPops : (stacked 0 0).sp.val = 0 ∧ 0 < (stacked 1 0).sp.val ∧ 0 < (stacked 16 0).sp.val := by decide

theorem witness_CallPushes : (stacked 16 0).sp.val = 16 ∧ (stacked 15 0).sp.val < 16 ∧ (stacked 0 0).sp.val < 16 := by
  decide

theorem witness_CallThenRet : (stacked 15 0).sp.val < 16 := by decide

theorem witness_ImmediateSkips : (regs 3 0x42 4 0).readV 3 = 0x42 ∧ (regs 3 0x42 4 0).readV 3 ≠ 0x43 := by decide

theorem witness_RegisterSkips : (regs 1 7 2 7).readV 1 = (regs 1 7 2 7).readV 2 ∧
    (regs 1 7 2 8).readV 1 ≠ (regs 1 7 2 8).readV 2 := by decide

theorem witness_flag_registers : (0x0 : Reg) ≠ VF ∧ (0xE : Reg) ≠ VF := by decide

theorem witness_DrawFlipsCells : ((0 : BitVec 4) = 0 ∨ (memAt 0xFFFF []).I.toNat + (0 : BitVec 4).toNat ≤ 4096) ∧
    (memAt 0xFF1 []).I.toNat + (15 : BitVec 4).toNat ≤ 4096 := by decide

/-- A covered cell and an uncovered one (R144): the sprite 0x80 at the origin covers the cell at row 0, column 0 alone. -/
theorem witness_SpriteCovers : SpriteCovers (memAt 0x300 [0x80]) 0 1 1 0 0 ∧ ¬ SpriteCovers (memAt 0x300 [0x80]) 0 1 1 1 0 := by
  constructor
  · exact ⟨0, by decide, 0, by decide, by decide, by decide, by decide⟩
  · rintro ⟨r, hr, c, _, _, h, _⟩
    have hr0 : r = 0 := by simp at hr; exact hr
    subst hr0
    exact absurd h (by decide)

theorem witness_DrawFlipsCells_lit : SpriteCovers (memAt 0x300 [0x80]) 0 1 1 0 0 ∧
    Framebuffer.cell (lit [0]) (0 * 64 + 0) = true :=
  ⟨witness_SpriteCovers.1, by decide⟩

theorem witness_DrawFlipsCells_traps : (2 : BitVec 4) ≠ 0 ∧ 4096 < (memAt 0xFFF []).I.toNat + (2 : BitVec 4).toNat := by decide

theorem witness_DrawTwiceRestores : (0x0 : Reg) ≠ VF ∧ (0x1 : Reg) ≠ VF ∧
    ((1 : BitVec 4) = 0 ∨ (memAt 0xFFF []).I.toNat + (1 : BitVec 4).toNat ≤ 4096) := by decide

theorem witness_KeySkips : ((regs 5 0x0F 0 0).readV 5).toNat < 16 ∧ 16 ≤ ((regs 5 0x10 0 0).readV 5).toNat := by decide

theorem witness_KeyWait_none : ∀ k, (h : k < 16) → State.reset.keys[k] = false := by decide

theorem witness_KeyWait_least : (keysAB 3 9).keys[3] = true ∧ ∀ j, (hj : j < 3) → (keysAB 3 9).keys[j] = false := by
  decide

theorem witness_KeyWaitTicks : (wordAt 0xF20A).halted = none ∧ (wordAt 0xF20A).fetch = some 0xF20A ∧
    decode 0xF20A = .ok (.ldVxK 2) ∧ (∀ k, (h : k < 16) → (wordAt 0xF20A).keys[k] = false) ∧
    ∀ a ∈ [Transaction.step, .tick, .step], a.waits = true := by decide

theorem witness_BcdStore : ((memAt 0xFFD []).I.toNat + 3 ≤ 4096 ∧
      ((memAt 0xFFD []).I.toNat ≤ 0x04F → (memAt 0xFFD []).glyphPolicy = .write)) ∧
    4096 < (memAt 0xFFE []).I.toNat + 3 ∧
    ((memAt 0x04F []).I.toNat ≤ 0x04F ∧ (memAt 0x04F []).glyphPolicy = .fatal) := by decide

theorem witness_StoreBlock : ((memAt 0x050 []).I.toNat + (0xF : Reg).toNat + 1 ≤ 4096 ∧
      ((memAt 0x050 []).I.toNat ≤ 0x04F → (memAt 0x050 []).glyphPolicy = .write)) ∧
    4096 < (memAt 0xFF1 []).I.toNat + (0xF : Reg).toNat + 1 ∧
    ((memAt 0x000 []).I.toNat ≤ 0x04F ∧ (memAt 0x000 []).glyphPolicy = .fatal) := by decide

theorem witness_StoreBlock_policyWrite : ({ memAt 0x000 [] with glyphPolicy := .write } : State).I.toNat ≤ 0x04F →
    ({ memAt 0x000 [] with glyphPolicy := .write } : State).glyphPolicy = .write := by decide

theorem witness_LoadBlock : (memAt 0xFF0 []).I.toNat + (0xF : Reg).toNat + 1 ≤ 4096 ∧
    4096 < (memAt 0xFF1 []).I.toNat + (0xF : Reg).toNat + 1 := by decide

theorem witness_StoreThenLoadBlock : (memAt 0xFF0 []).I.toNat + (0xF : Reg).toNat + 1 ≤ 4096 ∧
    ((memAt 0xFF0 []).I.toNat ≤ 0x04F → (memAt 0xFF0 []).glyphPolicy = .write) := by decide

theorem witness_AccessTable : ∃ t, exec (.cls 0x0E) State.reset = .next t := ⟨_, rfl⟩

theorem witness_AccessChecks : 4096 ≤ 4096 ∧ 0x04F ≤ 0x04F ∧ 0x04F < 0x050 ∧ 0x050 < 4096 ∧ 4095 < 4096 := by decide

theorem witness_StoreThenFetch : 1 ≤ (0x1 : Reg).toNat ∧ (memAt 0x202 []).I = (memAt 0x202 []).pc + 2 ∧
    (memAt 0x202 []).I.toNat + (0x1 : Reg).toNat + 1 ≤ 4096 ∧
    ((memAt 0x202 []).I.toNat ≤ 0x04F → (memAt 0x202 []).glyphPolicy = .write) := by decide

/-- The boundary of the clause of `LD_MEM_VX` with `x = 0`: the word stored over is the last of memory. -/
theorem witness_StoreThenFetch_one : ({ memAt 0xFFE [] with pc := 0xFFC } : State).I =
      ({ memAt 0xFFE [] with pc := 0xFFC } : State).pc + 2 ∧
    ({ memAt 0xFFE [] with pc := 0xFFC } : State).I.toNat + 2 ≤ 4096 ∧
    (({ memAt 0xFFE [] with pc := 0xFFC } : State).I.toNat ≤ 0x04F →
      ({ memAt 0xFFE [] with pc := 0xFFC } : State).glyphPolicy = .write) := by decide

/-- The boundary of the clause of `LD_B_VX`: the last digit goes to 0xFFF. -/
theorem witness_StoreThenFetch_bcd : ({ memAt 0xFFD [] with pc := 0xFFB } : State).I =
      ({ memAt 0xFFD [] with pc := 0xFFB } : State).pc + 2 ∧
    ({ memAt 0xFFD [] with pc := 0xFFB } : State).I.toNat + 3 ≤ 4096 ∧
    (({ memAt 0xFFD [] with pc := 0xFFB } : State).I.toNat ≤ 0x04F →
      ({ memAt 0xFFD [] with pc := 0xFFB } : State).glyphPolicy = .write) := by decide

/-- The reset state meets the invariant, and steps. -/
theorem witness_StepKeepsInv : State.reset.Inv ∧ ∃ t, step State.reset = .next t := by
  refine ⟨⟨rfl, by decide, ?_⟩, _, rfl⟩
  intro k _ hk
  exact absurd hk (Nat.not_lt_zero k)

theorem witness_ScheduleKeepsInv : State.reset.Inv ∧ ∃ t, runSchedule defaultParams [.step, .tick] State.reset = .next t :=
  ⟨witness_StepKeepsInv.1, _, rfl⟩

theorem witness_GlyphTableConstant : State.reset.glyphPolicy = .fatal ∧ (∃ t, step State.reset = .next t) ∧ 79 < 80 :=
  ⟨rfl, ⟨_, rfl⟩, by decide⟩

theorem witness_StepKeepsInputs : ∃ t, step State.reset = .next t := ⟨_, rfl⟩

theorem witness_SoundTimerUnread : ∃ t, step (wordAt 0xF218) = .next t := ⟨_, rfl⟩

theorem witness_RedrawSet : ∃ t, step { State.reset with fb := lit [5], redraw := true } = .next t ∧
    t.fb ≠ lit [5] :=
  ⟨{ State.reset with fb := Framebuffer.blank, redraw := true, pc := 0x202 }, rfl, by decide⟩

theorem witness_UndefinedRecord : ∃ t, step (wordAt 0x8008) = .next t ∧ t.lastUndefined ≠ (wordAt 0x8008).lastUndefined :=
  ⟨{ wordAt 0x8008 with lastUndefined := some 0x8008, pc := 0x202 }, rfl, by decide⟩

theorem witness_SelfJumpRepeats : (wordAt 0x1200).halted = none ∧ (wordAt 0x1200).EndsAt 0x200 :=
  ⟨by decide, by decide, 0x1200, 0x200, by decide, by decide, by decide⟩

theorem witness_TicksAndToneEnd : State.reset.halted = none := by decide

theorem witness_TickCountsDown : State.reset.halted = none ∧ haltedState.halted ≠ none := by decide

theorem witness_ResetState : 79 < 80 ∧ 431 < 432 ∧ 0 < ([0x12] : List Byte).length ∧ 3583 < 3584 ∧
    ([0x12] : List Byte).length ≤ 1 := by decide

theorem witness_StepEvents_fetchFails : ({ State.reset with pc := 0xFFF } : State).halted = none ∧
    ({ State.reset with pc := 0xFFF } : State).fetch = none := by decide

theorem witness_StepEvents : ∃ t, (wordAt 0x00EE).halted = none ∧ (wordAt 0x00EE).fetch = some 0x00EE ∧
    decode 0x00EE = .ok (.ret 0x0E) ∧ exec (.ret 0x0E) (wordAt 0x00EE) = .next t :=
  ⟨_, by decide, by decide, by decide, rfl⟩

end Sys2Proof.Tests
end

