-- ==== Sys2Proof/Proofs/State.lean ====
section
/-! PROOFS. The family 10_state: what an instruction can answer and may write, the invariant of memory, `pc` and the return
addresses, the fields no instruction reads, and the state after reset. -/

namespace Sys2Proof.Machine

/-! ### What the instructions with more than one outcome can answer -/

/-- 00EE raises, or pops the last entry and resumes 2 above it (R101). -/
theorem execRet_eq_next {ign : BitVec 8} {s t : State} (h : execRet ign s = .next t) :
    (∃ f, t = s.raise f) ∨
    ∃ _h : 0 < s.sp.val,
      t = { s with sp := ⟨s.sp.val - 1, by omega⟩, pc := s.stack[s.sp.val - 1]'(by omega) + 2 } := by
  unfold execRet at h
  split at h
  · exact .inl ⟨_, (Host.Outcome.next.inj h).symm⟩
  · rename_i hp
    obtain ⟨hsp, rfl, rfl⟩ := (State.pop_eq_some ..).mp hp
    exact .inr ⟨hsp, (Host.Outcome.next.inj h).symm⟩

/-- 2nnn raises, or pushes its own address and goes to `nnn` (R103). -/
theorem execCall_eq_next {nnn : Imm12} {s t : State} (h : execCall nnn s = .next t) :
    (∃ f, t = s.raise f) ∨
    ∃ hsp : s.sp.val < 16,
      t = { s with
        stack := s.stack.set s.sp.val s.pc hsp, sp := ⟨s.sp.val + 1, by omega⟩, pc := zext16 nnn } := by
  unfold execCall at h
  split at h
  · exact .inl ⟨_, (Host.Outcome.next.inj h).symm⟩
  · rename_i hp
    obtain ⟨hsp, rfl⟩ := (State.push_eq_some ..).mp hp
    exact .inr ⟨hsp, (Host.Outcome.next.inj h).symm⟩

/-- A guarded end raises, or its checks passed and it answers the state after (R53). -/
theorem State.guarded_eq_next {s t u : State} {e : Option AccessError} {w : Word}
    (h : s.guarded e w t = .next u) : (∃ f, u = s.raise f) ∨ e = none ∧ u = t := by
  rcases (State.guarded_eq ..).mp h with ⟨x, -, hu⟩ | hu
  · exact .inl ⟨_, hu⟩
  · exact .inr hu

/-- Ex9E raises or skips (R161). -/
theorem execSkp_eq_next {x : Reg} {s t : State} (h : execSkp x s = .next t) :
    (∃ f, t = s.raise f) ∨ ∃ c, t = s.skipIf c := by
  unfold execSkp at h
  split at h
  · exact .inl ⟨_, (Host.Outcome.next.inj h).symm⟩
  · exact .inr ⟨_, (Host.Outcome.next.inj h).symm⟩

/-- ExA1 raises or skips (R162). -/
theorem execSknp_eq_next {x : Reg} {s t : State} (h : execSknp x s = .next t) :
    (∃ f, t = s.raise f) ∨ ∃ c, t = s.skipIf c := by
  unfold execSknp at h
  split at h
  · exact .inl ⟨_, (Host.Outcome.next.inj h).symm⟩
  · exact .inr ⟨_, (Host.Outcome.next.inj h).symm⟩

/-- Fx0A waits on the same state, or writes a key index to `V[x]` (R164). -/
theorem execLdVxK_eq_next {x : Reg} {s t : State} (h : execLdVxK x s = .next t) :
    t = s ∨ ∃ v, t = (s.writeV x v).advance := by
  unfold execLdVxK at h
  split at h
  · exact .inl (Host.Outcome.next.inj h).symm
  · exact .inr ⟨_, (Host.Outcome.next.inj h).symm⟩

/-! ### The fields an instruction may write (10_state.md R41) -/

/-- `s` with the listed fields taken from `t`. -/
def State.overwrite (s t : State) (l : List Field) : State where
  mem := if .mem ∈ l then t.mem else s.mem
  V := if .V ∈ l then t.V else s.V
  I := if .I ∈ l then t.I else s.I
  pc := if .pc ∈ l then t.pc else s.pc
  stack := if .stack ∈ l then t.stack else s.stack
  sp := if .sp ∈ l then t.sp else s.sp
  DT := if .DT ∈ l then t.DT else s.DT
  ST := if .ST ∈ l then t.ST else s.ST
  fb := if .fb ∈ l then t.fb else s.fb
  keys := if .keys ∈ l then t.keys else s.keys
  redraw := if .redraw ∈ l then t.redraw else s.redraw
  lastUndefined := if .lastUndefined ∈ l then t.lastUndefined else s.lastUndefined
  halted := if .halted ∈ l then t.halted else s.halted
  draws := if .draws ∈ l then t.draws else s.draws
  glyphPolicy := if .glyphPolicy ∈ l then t.glyphPolicy else s.glyphPolicy

/-- `t` is `s` but for the listed fields. Stronger than `Unchanged`: memory keeps its cells, not only its reads. -/
def WritesOnly (l : List Field) (s t : State) : Prop := t = s.overwrite t l

theorem WritesOnly.mem_eq {l : List Field} {s t : State} (h : WritesOnly l s t) (hl : .mem ∉ l) :
    t.mem = s.mem := (congrArg State.mem h).trans (if_neg hl)

theorem WritesOnly.V_eq {l : List Field} {s t : State} (h : WritesOnly l s t) (hl : .V ∉ l) :
    t.V = s.V := (congrArg State.V h).trans (if_neg hl)

theorem WritesOnly.unchanged {l : List Field} {s t : State} (h : WritesOnly l s t) : Unchanged l s t := by
  intro f hf
  cases f with
  | mem => intro a; rw [h.mem_eq hf]
  | V => exact State.readV_congr (h.V_eq hf)
  | I => exact (congrArg State.I h).trans (if_neg hf)
  | pc => exact (congrArg State.pc h).trans (if_neg hf)
  | stack => exact (congrArg State.stack h).trans (if_neg hf)
  | sp => exact (congrArg State.sp h).trans (if_neg hf)
  | DT => exact (congrArg State.DT h).trans (if_neg hf)
  | ST => exact (congrArg State.ST h).trans (if_neg hf)
  | fb => exact (congrArg State.fb h).trans (if_neg hf)
  | keys => exact (congrArg State.keys h).trans (if_neg hf)
  | redraw => exact (congrArg State.redraw h).trans (if_neg hf)
  | lastUndefined => exact (congrArg State.lastUndefined h).trans (if_neg hf)
  | halted => exact (congrArg State.halted h).trans (if_neg hf)
  | draws => exact (congrArg State.draws h).trans (if_neg hf)
  | glyphPolicy => exact (congrArg State.glyphPolicy h).trans (if_neg hf)

/-- A fatal condition writes `halted` alone (R200). -/
theorem writesOnly_raise (s : State) (f : Fatal) : WritesOnly [.halted] s (s.raise f) := rfl

/-- The undefined handler writes `last_undefined` and `pc` alone (R78). -/
theorem writesOnly_undefined (s : State) (w : Word) :
    WritesOnly [.lastUndefined, .pc] s { s with lastUndefined := some w, pc := s.pc + 2 } := rfl

/-- An instruction writes `pc`, `halted` and the fields of its row of the access table, no other (R41). -/
theorem exec_writesOnly {i : Instr} {s t : State} (h : exec i s = .next t) :
    WritesOnly (.pc :: .halted :: fieldsWritten i) s t := by
  cases i
  case ret => rcases execRet_eq_next h with ⟨f, rfl⟩ | ⟨_, rfl⟩ <;> rfl
  case call => rcases execCall_eq_next h with ⟨f, rfl⟩ | ⟨_, rfl⟩ <;> rfl
  case skp => rcases execSkp_eq_next h with ⟨f, rfl⟩ | ⟨c, rfl⟩ <;> rfl
  case sknp => rcases execSknp_eq_next h with ⟨f, rfl⟩ | ⟨c, rfl⟩ <;> rfl
  case ldVxK => rcases execLdVxK_eq_next h with rfl | ⟨v, rfl⟩ <;> rfl
  case drw | ldBVx | ldMemVx | ldVxMem => rcases State.guarded_eq_next h with ⟨f, rfl⟩ | ⟨_, rfl⟩ <;> rfl
  all_goals
    obtain rfl := Host.Outcome.next.inj h
    rfl

theorem exec_mem_eq {i : Instr} {s t : State} (h : exec i s = .next t) (hi : .mem ∉ fieldsWritten i) :
    t.mem = s.mem := (exec_writesOnly h).mem_eq (by simp [hi])

theorem exec_stack_eq {i : Instr} {s t : State} (h : exec i s = .next t) (hi : .stack ∉ fieldsWritten i) :
    t.stack = s.stack := (exec_writesOnly h).unchanged .stack (by simp [hi])

theorem exec_sp_eq {i : Instr} {s t : State} (h : exec i s = .next t) (hi : .sp ∉ fieldsWritten i) :
    t.sp = s.sp := (exec_writesOnly h).unchanged .sp (by simp [hi])

theorem exec_readV_eq {i : Instr} {s t : State} (h : exec i s = .next t) (hi : .V ∉ fieldsWritten i) (r : Reg) :
    t.readV r = s.readV r := (exec_writesOnly h).unchanged .V (by simp [hi]) r

/-- The ALU sequence writes no register but `x` and VF. -/
theorem State.readV_alu8_ne (s : State) (op : Byte → Byte → Byte × Option Byte) {x r : Reg} (y : Reg)
    (hr : ¬ (r = x ∨ r = VF)) : (s.alu8 op x y).readV r = s.readV r := by
  obtain ⟨hx, hf⟩ := not_or.mp hr
  rw [State.readV_alu8, if_neg (Ne.symm hx), if_neg (Ne.symm hf)]

/-- The ALU sequence of an operation with no flag writes no register but `x`. -/
theorem State.readV_alu8_noFlag (s : State) (f : Byte → Byte → Byte) {x r : Reg} (y : Reg) (hr : r ≠ x) :
    (s.alu8 (fun a b => (f a b, none)) x y).readV r = s.readV r := by
  rw [State.readV_alu8, if_neg (Ne.symm hr)]
  exact ite_self _

/-- No register above `x` is written by a block load (R171). -/
theorem State.readV_loadBlock_above {s t : State} {x r : Reg} (ht : t.V = s.loadBlock x)
    (hr : ¬ r.toNat ≤ x.toNat) : t.readV r = s.readV r := by
  simp only [State.readV, ht, State.getElem_loadBlock, if_neg hr]

/-- An instruction writes no V register but those its row of the access table lists (R41). -/
theorem exec_readV_of_not_regWritten {i : Instr} {s t : State} (h : exec i s = .next t) {r : Reg}
    (hr : ¬ RegWritten r i) : t.readV r = s.readV r := by
  cases i
  case ldReg | or | and | xor =>
    obtain rfl := Host.Outcome.next.inj h
    exact State.readV_alu8_noFlag s _ _ hr
  case addReg | sub | shr | subn | shl =>
    obtain rfl := Host.Outcome.next.inj h
    exact State.readV_alu8_ne s _ _ hr
  case ldImm | addImm | rnd | ldVxDt | addIVx =>
    obtain rfl := Host.Outcome.next.inj h
    exact State.readV_writeV_ne _ _ (Ne.symm hr)
  case ldVxK =>
    rcases execLdVxK_eq_next h with rfl | ⟨v, rfl⟩
    · rfl
    · exact State.readV_writeV_ne _ _ (Ne.symm hr)
  case drw =>
    rcases State.guarded_eq_next h with ⟨f, rfl⟩ | ⟨_, rfl⟩
    · rfl
    · exact State.readV_writeV_ne _ _ (Ne.symm hr)
  case ldVxMem =>
    rcases State.guarded_eq_next h with ⟨f, rfl⟩ | ⟨_, rfl⟩
    · rfl
    · exact State.readV_loadBlock_above rfl hr
  all_goals exact exec_readV_eq h (by simp [fieldsWritten]) r

/-- An instruction writes no stack entry but `stack[sp]`, and that one by 2nnn alone (R27, R41). -/
theorem exec_stack_of_not_stackWritten {i : Instr} {s t : State} (h : exec i s = .next t) {k : Nat} (hk : k < 16)
    (hw : ¬ StackWritten k s i) : t.stack[k] = s.stack[k] := by
  cases i
  case call nnn =>
    rcases execCall_eq_next h with ⟨f, rfl⟩ | ⟨hsp, rfl⟩
    · rfl
    · have hne : s.sp.val ≠ k := fun he => hw ⟨he.symm, nnn, rfl⟩
      exact Vector.getElem_set_ne hsp hk hne
  all_goals rw [exec_stack_eq h (by simp [fieldsWritten])]

/-- A block write leaves every byte outside the block. -/
theorem bytesUnchanged_of_writeBlock {s t : State} {a n : Nat} {vs : List Byte} (ht : t.mem = s.mem.writeBlock a vs)
    (hn : vs.length = n) : BytesUnchanged a n s t := by
  intro b hb
  rw [ht, Memory.read_writeBlock, if_neg (hn ▸ hb)]

/-- An instruction writes no byte but the block it stores from `I` up (R41, R56). -/
theorem exec_bytesUnchanged {i : Instr} {s t : State} (h : exec i s = .next t) :
    BytesUnchanged s.I.toNat (bytesStored i) s t := by
  cases i
  case ldBVx x =>
    rcases State.guarded_eq_next h with ⟨f, rfl⟩ | ⟨_, rfl⟩
    · exact fun _ _ => rfl
    · exact bytesUnchanged_of_writeBlock rfl rfl
  case ldMemVx x =>
    rcases State.guarded_eq_next h with ⟨f, rfl⟩ | ⟨_, rfl⟩
    · exact fun _ _ => rfl
    · exact bytesUnchanged_of_writeBlock rfl (s.length_blockBytes x)
  all_goals
    intro b _
    rw [exec_mem_eq h (by simp [fieldsWritten])]

/-- Settles O38, one lemma for each clause of the access table. -/
theorem accessTable : Obligations.AccessTable := by
  intro i s t h
  exact ⟨(exec_writesOnly h).unchanged, fun _ hr => exec_readV_of_not_regWritten h hr,
    fun _ hk hw => exec_stack_of_not_stackWritten h hk hw, exec_bytesUnchanged h⟩

/-! ### The fields no step writes (R31, R32, R34) -/

/-- A field that neither the undefined handler, nor a fatal condition, nor the routine of any instruction writes is
unchanged by a step. -/
theorem step_keeps_field {f : Field} (hf : f ∉ [.pc, .halted, .lastUndefined]) (hi : ∀ i, f ∉ fieldsWritten i)
    {s t : State} (h : step s = .next t) : f.same s t := by
  rcases step_eq_next h with ⟨_, rfl⟩ | ⟨_, _, rfl⟩ | ⟨w, _, _, _, rfl⟩ | ⟨w, i, _, _, _, h⟩
  · exact Unchanged.refl [] t f List.not_mem_nil
  · exact ((writesOnly_raise s _).unchanged.mono (by decide)) f hf
  · exact ((writesOnly_undefined s w).unchanged.mono (by decide)) f hf
  · exact (exec_writesOnly h).unchanged f (by simp_all)

theorem keys_not_written (i : Instr) : .keys ∉ fieldsWritten i := by
  cases i <;> simp [fieldsWritten]

theorem glyphPolicy_not_written (i : Instr) : .glyphPolicy ∉ fieldsWritten i := by
  cases i <;> simp [fieldsWritten]

theorem lastUndefined_not_written (i : Instr) : .lastUndefined ∉ fieldsWritten i := by
  cases i <;> simp [fieldsWritten]

/-- Settles O45: neither field is in any row of the access table. -/
theorem stepKeepsInputs : Obligations.StepKeepsInputs := by
  intro s t h
  exact ⟨step_keeps_field (f := .keys) (by decide) keys_not_written h,
    step_keeps_field (f := .glyphPolicy) (by decide) glyphPolicy_not_written h⟩

/-- An instruction leaves the framebuffer and `redraw`, or sets `redraw` (R32): only 00E0 and Dxyn write them. -/
theorem exec_fb_redraw {i : Instr} {s t : State} (h : exec i s = .next t) :
    t.fb = s.fb ∧ t.redraw = s.redraw ∨ t.redraw = true := by
  cases i
  case cls =>
    obtain rfl := Host.Outcome.next.inj h
    exact .inr rfl
  case drw =>
    rcases State.guarded_eq_next h with ⟨f, rfl⟩ | ⟨_, rfl⟩
    · exact .inl ⟨rfl, rfl⟩
    · exact .inr rfl
  all_goals
    have hu := (exec_writesOnly h).unchanged
    exact .inl ⟨hu .fb (by simp [fieldsWritten]), hu .redraw (by simp [fieldsWritten])⟩

theorem step_fb_redraw {s t : State} (h : step s = .next t) :
    t.fb = s.fb ∧ t.redraw = s.redraw ∨ t.redraw = true := by
  rcases step_eq_next h with ⟨_, rfl⟩ | ⟨_, _, rfl⟩ | ⟨w, _, _, _, rfl⟩ | ⟨w, i, _, _, _, h⟩
  · exact .inl ⟨rfl, rfl⟩
  · exact .inl ⟨rfl, rfl⟩
  · exact .inl ⟨rfl, rfl⟩
  · exact exec_fb_redraw h

/-- Settles O46: a step leaves both fields or sets `redraw`. -/
theorem redrawSet : Obligations.RedrawSet := by
  intro s t h
  rcases step_fb_redraw h with ⟨hfb, hr⟩ | hr
  · exact ⟨fun hne => absurd hfb hne, fun hs => hr.trans hs⟩
  · exact ⟨fun _ => hr, fun _ => hr⟩

/-- Settles O47: no row of the access table lists `last_undefined`, so only the undefined handler is left. -/
theorem undefinedRecord : Obligations.UndefinedRecord := by
  intro s t h hne
  rcases step_eq_next h with ⟨_, rfl⟩ | ⟨_, _, rfl⟩ | ⟨w, _, hw, hd, rfl⟩ | ⟨w, i, _, _, _, h⟩
  · exact absurd rfl hne
  · exact absurd rfl hne
  · exact ⟨w, hw, hd, rfl⟩
  · exact absurd ((exec_writesOnly h).unchanged .lastUndefined (by simp [lastUndefined_not_written])) hne

/-! ### The invariant (R26, R28, R50) -/

/-- A store whose checks passed keeps memory canonical (R52, R53). -/
theorem Memory.wf_writeBlock_of_checked {m : Memory} {p : GlyphPolicy} {a n : Nat} {vs : List Byte}
    (hm : Memory.wf m = true) (hc : checkBlock (checkWrite p) a n = none) (hn : vs.length = n) :
    Memory.wf (m.writeBlock a vs) = true := by
  refine Memory.wf_writeBlock hm ?_
  rcases (checkBlock_write_eq_none ..).mp hc with h0 | ⟨hle, _⟩
  · exact .inl (List.length_eq_zero_iff.mp (hn.trans h0))
  · exact .inr (hn ▸ hle)

theorem exec_keeps_memWf {i : Instr} {s t : State} (hm : Memory.wf s.mem = true) (h : exec i s = .next t) :
    Memory.wf t.mem = true := by
  cases i
  case ldBVx =>
    rcases State.guarded_eq_next h with ⟨f, rfl⟩ | ⟨hc, rfl⟩
    · exact hm
    · exact Memory.wf_writeBlock_of_checked hm hc rfl
  case ldMemVx x =>
    rcases State.guarded_eq_next h with ⟨f, rfl⟩ | ⟨hc, rfl⟩
    · exact hm
    · exact Memory.wf_writeBlock_of_checked hm hc (s.length_blockBytes x)
  all_goals rwa [exec_mem_eq h (by simp [fieldsWritten])]

/-- Every stored return address is one whose two bytes exist: the third clause of `State.Inv`. -/
def State.ReturnsOk (s : State) : Prop :=
  ∀ k, (h : k < 16) → k < s.sp.val → (s.stack[k]).toNat + 1 < 4096

theorem State.inv_iff (s : State) : s.Inv ↔ Memory.wf s.mem = true ∧ s.pc.toNat ≤ 0x10FE ∧ s.ReturnsOk := Iff.rfl

/-- 2nnn pushes the address it was fetched at, 00EE only pops (R27, R28). -/
theorem exec_keeps_returnsOk {i : Instr} {s t : State} (hs : s.ReturnsOk) (hpc : s.pc.toNat + 1 < 4096)
    (h : exec i s = .next t) : t.ReturnsOk := by
  cases i
  case call =>
    rcases execCall_eq_next h with ⟨f, rfl⟩ | ⟨hsp, rfl⟩
    · exact hs
    · intro k hk hlt
      simp only [Vector.getElem_set]
      split
      · exact hpc
      · exact hs k hk (by simp only at hlt; omega)
  case ret =>
    rcases execRet_eq_next h with ⟨f, rfl⟩ | ⟨hsp, rfl⟩
    · exact hs
    · intro k hk hlt
      exact hs k hk (by simp only at hlt; omega)
  all_goals
    intro k hk hlt
    rw [exec_sp_eq h (by simp [fieldsWritten])] at hlt
    simpa only [exec_stack_eq h (by simp [fieldsWritten])] using hs k hk hlt

/-- Control goes on without a redirection: it stays (a wait or a fatal condition), goes to the next word, or skips it
(R26). -/
def Sequential (s t : State) : Prop := t.pc = s.pc ∨ t.pc = s.pc + 2 ∨ t.pc = s.pc + 4

theorem sequential_raise (s : State) (f : Fatal) : Sequential s (s.raise f) := .inl rfl

theorem sequential_skipIf (s : State) (c : Bool) : Sequential s (s.skipIf c) := by
  cases c
  · exact .inr (.inl rfl)
  · exact .inr (.inr rfl)

theorem zext16_toNat_lt (nnn : Imm12) : (zext16 nnn).toNat < 4096 := by
  have hn := nnn.isLt
  simp only [zext16, BitVec.toNat_setWidth]
  omega

/-- The highest target of Bnnn is 0xFFF + 0xFF (R142). -/
theorem State.indexedTarget_toNat_le (s : State) (nnn : Imm12) : (s.indexedTarget nnn).toNat ≤ 0x10FE := by
  have hn := zext16_toNat_lt nnn
  have hv := (s.readV V0).isLt
  simp only [State.indexedTarget, BitVec.toNat_add, BitVec.toNat_setWidth]
  omega

/-- Where control can go (R26): on, to a jump's target, or 2 above a stored return address. -/
theorem exec_pc {i : Instr} {s t : State} (h : exec i s = .next t) :
    Sequential s t ∨ t.pc.toNat ≤ 0x10FE ∨
      ∃ k, ∃ hk : k < 16, k < s.sp.val ∧ t.pc = s.stack[k] + 2 := by
  cases i
  case jp nnn =>
    obtain rfl := Host.Outcome.next.inj h
    exact .inr (.inl (by have := zext16_toNat_lt nnn; simp only; omega))
  case jpV0 nnn =>
    obtain rfl := Host.Outcome.next.inj h
    exact .inr (.inl (s.indexedTarget_toNat_le nnn))
  case call nnn =>
    rcases execCall_eq_next h with ⟨f, rfl⟩ | ⟨_, rfl⟩
    · exact .inl (sequential_raise s f)
    · exact .inr (.inl (by have := zext16_toNat_lt nnn; simp only; omega))
  case ret =>
    rcases execRet_eq_next h with ⟨f, rfl⟩ | ⟨hsp, rfl⟩
    · exact .inl (sequential_raise s f)
    · exact .inr (.inr ⟨s.sp.val - 1, by omega, by omega, rfl⟩)
  case seImm | sneImm | seReg | sneReg =>
    obtain rfl := Host.Outcome.next.inj h
    exact .inl (sequential_skipIf s _)
  case skp =>
    rcases execSkp_eq_next h with ⟨f, rfl⟩ | ⟨c, rfl⟩
    · exact .inl (sequential_raise s f)
    · exact .inl (sequential_skipIf s c)
  case sknp =>
    rcases execSknp_eq_next h with ⟨f, rfl⟩ | ⟨c, rfl⟩
    · exact .inl (sequential_raise s f)
    · exact .inl (sequential_skipIf s c)
  case ldVxK =>
    rcases execLdVxK_eq_next h with rfl | ⟨v, rfl⟩
    · exact .inl (.inl rfl)
    · exact .inl (.inr (.inl rfl))
  case drw | ldBVx | ldMemVx | ldVxMem =>
    rcases State.guarded_eq_next h with ⟨f, rfl⟩ | ⟨_, rfl⟩
    · exact .inl (sequential_raise s f)
    · exact .inl (.inr (.inl rfl))
  all_goals
    obtain rfl := Host.Outcome.next.inj h
    exact .inl (.inr (.inl rfl))

/-- Going on at most 4 from an address that was fetched at stays below the bound. -/
theorem pc_add_le {p : Word} (hp : p.toNat + 1 < 4096) {d : Word} (hd : d.toNat ≤ 4) :
    (p + d).toNat ≤ 0x10FE := by
  rw [BitVec.toNat_add]
  omega

theorem exec_pc_le {i : Instr} {s t : State} (hs : s.ReturnsOk) (hpc : s.pc.toNat + 1 < 4096)
    (h : exec i s = .next t) : t.pc.toNat ≤ 0x10FE := by
  rcases exec_pc h with (hp | hp | hp) | hp | ⟨k, hk, hsp, hp⟩
  · rw [hp]; omega
  · rw [hp]; exact pc_add_le hpc (by decide)
  · rw [hp]; exact pc_add_le hpc (by decide)
  · exact hp
  · rw [hp]; exact pc_add_le (hs k hk hsp) (by decide)

/-- A step keeps the invariant. -/
theorem step_keeps_inv {s t : State} (hs : s.Inv) (h : step s = .next t) : t.Inv := by
  obtain ⟨hm, -, hr⟩ := s.inv_iff.mp hs
  rcases step_eq_next h with ⟨_, rfl⟩ | ⟨_, _, rfl⟩ | ⟨w, _, hw, _, rfl⟩ | ⟨w, i, _, hw, _, h⟩
  · exact hs
  · exact hs
  · obtain ⟨hpc, _⟩ := (State.fetch_eq_some ..).mp hw
    exact ⟨hm, pc_add_le hpc (by decide), hr⟩
  · obtain ⟨hpc, _⟩ := (State.fetch_eq_some ..).mp hw
    exact ⟨exec_keeps_memWf hm h, exec_pc_le hr hpc h, exec_keeps_returnsOk hr hpc h⟩

/-- Settles O42: each clause of the invariant is kept by each thing a step can do. -/
theorem stepKeepsInv : Obligations.StepKeepsInv := fun _ _ => step_keeps_inv

/-- A state with no return address stored meets the third clause of the invariant. -/
theorem State.returnsOk_of_sp_zero {s : State} (h : s.sp = 0) : s.ReturnsOk := by
  intro k _ hk
  rw [h] at hk
  exact absurd hk (Nat.not_lt_zero k)

theorem State.inv_resetWith (s : State) (p : Params) (image : List Byte) : (s.resetWith p image).Inv :=
  ⟨Memory.wf_build _ 0 4096 (by decide), (by decide : (0x200 : Word).toNat ≤ 0x10FE), State.returnsOk_of_sp_zero rfl⟩

/-- Settles O41: `State.reset` has an empty memory and stack, Reset builds a canonical memory. -/
theorem invAtReset : Obligations.InvAtReset :=
  ⟨⟨rfl, by decide, State.returnsOk_of_sp_zero rfl⟩, fun p s image => s.inv_resetWith p image⟩

theorem State.inv_tick {s : State} (hs : s.Inv) : s.tick.Inv := by
  by_cases hh : s.halted = none
  · rw [State.tick_of_running hh]; exact hs
  · rw [State.tick_of_halted hh]; exact hs

theorem transact_keeps_inv {p : Params} {s t : State} {a : Transaction} (hs : s.Inv)
    (h : transact p s a = .next t) : t.Inv := by
  cases a with
  | step => exact step_keeps_inv hs h
  | reset image =>
    obtain rfl := Host.Outcome.next.inj h
    exact s.inv_resetWith p image
  | tick =>
    obtain rfl := Host.Outcome.next.inj h
    exact State.inv_tick hs
  | setKeys k =>
    obtain rfl := Host.Outcome.next.inj h
    exact hs
  | redrawClear =>
    obtain rfl := Host.Outcome.next.inj h
    exact hs

/-- A schedule that answers a next state went through the state after its first transaction (R221). -/
theorem runSchedule_cons_eq_next {p : Params} {a : Transaction} {ts : List Transaction} {s t : State}
    (h : runSchedule p (a :: ts) s = .next t) : ∃ u, transact p s a = .next u ∧ runSchedule p ts u = .next t := by
  unfold runSchedule at h
  split at h
  · exact ⟨_, ‹_›, h⟩
  · cases h
  · cases h

/-- Settles O43, by induction on the schedule. -/
theorem scheduleKeepsInv : Obligations.ScheduleKeepsInv := by
  intro p ts
  induction ts with
  | nil =>
    intro s t hs h
    obtain rfl := Host.Outcome.next.inj h
    exact hs
  | cons a ts ih =>
    intro s t hs h
    obtain ⟨u, ha, hts⟩ := runSchedule_cons_eq_next h
    exact ih u t (transact_keeps_inv hs ha) hts

/-! ### The fields no instruction reads: ST and `last_undefined` (R29, R34, R40) -/

/-- `s` with other values of ST and `last_undefined`. -/
def State.withUnread (s : State) (st : Byte) (u : Option Word) : State := { s with ST := st, lastUndefined := u }

/-- A result with the next state, if there is one, mapped. -/
def mapNext (f : State → State) : Result → Result
  | .next t => .next (f t)
  | .fault r => .fault r
  | .refused r => .refused r

section
variable (s : State) (st : Byte) (u : Option Word)

theorem State.halted_withUnread : (s.withUnread st u).halted = s.halted := rfl

theorem State.fetch_withUnread : (s.withUnread st u).fetch = s.fetch := rfl

theorem State.readV_withUnread (r : Reg) : (s.withUnread st u).readV r = s.readV r := rfl

theorem State.keyAt_withUnread (v : Byte) : (s.withUnread st u).keyAt v = s.keyAt v := rfl

theorem State.leastKey_withUnread : (s.withUnread st u).leastKey = s.leastKey := rfl

theorem State.push_withUnread (a : Word) : (s.withUnread st u).push a = (s.push a).map (·.withUnread st u) := by
  unfold State.push
  split
  · rename_i hsp; rw [dif_pos (show s.sp.val < 16 from hsp)]; rfl
  · rename_i hsp; rw [dif_neg (show ¬ s.sp.val < 16 from hsp)]; rfl

theorem State.pop_withUnread :
    (s.withUnread st u).pop = s.pop.map (fun p => (p.1, p.2.withUnread st u)) := by
  unfold State.pop
  split
  · rename_i hsp; rw [dif_pos (show 0 < s.sp.val from hsp)]; rfl
  · rename_i hsp; rw [dif_neg (show ¬ 0 < s.sp.val from hsp)]; rfl

theorem State.guarded_withUnread (e : Option AccessError) (w : Word) {t t' : State}
    (ht : t' = t.withUnread st u) :
    (s.withUnread st u).guarded e w t' = mapNext (·.withUnread st u) (s.guarded e w t) := by
  subst ht
  cases e <;> rfl

theorem execRet_withUnread (ign : BitVec 8) :
    execRet ign (s.withUnread st u) = mapNext (·.withUnread st u) (execRet ign s) := by
  simp only [execRet, State.pop_withUnread]
  cases s.pop <;> rfl

theorem execCall_withUnread (nnn : Imm12) :
    execCall nnn (s.withUnread st u) = mapNext (·.withUnread st u) (execCall nnn s) := by
  have hpush : (s.withUnread st u).push (s.withUnread st u).pc = (s.push s.pc).map (·.withUnread st u) :=
    s.push_withUnread st u s.pc
  simp only [execCall, hpush]
  cases s.push s.pc <;> rfl

theorem execSkp_withUnread (x : Reg) :
    execSkp x (s.withUnread st u) = mapNext (·.withUnread st u) (execSkp x s) := by
  simp only [execSkp, State.keyAt_withUnread, State.readV_withUnread]
  cases s.keyAt (s.readV x) <;> rfl

theorem execSknp_withUnread (x : Reg) :
    execSknp x (s.withUnread st u) = mapNext (·.withUnread st u) (execSknp x s) := by
  simp only [execSknp, State.keyAt_withUnread, State.readV_withUnread]
  cases s.keyAt (s.readV x) <;> rfl

theorem execLdVxK_withUnread (x : Reg) :
    execLdVxK x (s.withUnread st u) = mapNext (·.withUnread st u) (execLdVxK x s) := by
  simp only [execLdVxK, State.leastKey_withUnread]
  cases s.leastKey <;> rfl

end

/-- The routine of an instruction other than Fx18 does not read the two fields, nor write them. -/
theorem exec_withUnread {i : Instr} (hi : ∀ x, i ≠ .ldStVx x) (s : State) (st : Byte) (u : Option Word) :
    exec i (s.withUnread st u) = mapNext (·.withUnread st u) (exec i s) := by
  cases i
  case ldStVx x => exact absurd rfl (hi x)
  case ret ign => exact execRet_withUnread s st u ign
  case call nnn => exact execCall_withUnread s st u nnn
  case skp x => exact execSkp_withUnread s st u x
  case sknp x => exact execSknp_withUnread s st u x
  case ldVxK x => exact execLdVxK_withUnread s st u x
  case drw | ldBVx | ldMemVx | ldVxMem => exact State.guarded_withUnread s st u _ _ rfl
  all_goals rfl

/-- Fx18 writes ST without reading it (R166). -/
theorem exec_ldStVx_withUnread (x : Reg) (s : State) (st : Byte) (u : Option Word) :
    exec (.ldStVx x) (s.withUnread st u) =
      mapNext (·.withUnread (s.readV x) u) (exec (.ldStVx x) s) := rfl

/-- Whatever the two fields hold, a routine answers the same but for them. -/
theorem exec_withUnread_exists (i : Instr) (s : State) (st : Byte) (u : Option Word) :
    ∃ st' u', exec i (s.withUnread st u) = mapNext (·.withUnread st' u') (exec i s) := by
  by_cases hi : ∃ x, i = .ldStVx x
  · obtain ⟨x, rfl⟩ := hi
    exact ⟨s.readV x, u, exec_ldStVx_withUnread x s st u⟩
  · exact ⟨st, u, exec_withUnread (not_exists.mp hi) s st u⟩

/-- Whatever the two fields hold, a step answers the same but for them. -/
theorem step_withUnread (s : State) (st : Byte) (u : Option Word) :
    ∃ st' u', step (s.withUnread st u) = mapNext (·.withUnread st' u') (step s) := by
  simp only [step, State.halted_withUnread, State.fetch_withUnread]
  cases s.halted with
  | some f => exact ⟨st, u, rfl⟩
  | none =>
    cases s.fetch with
    | none => exact ⟨st, u, rfl⟩
    | some w =>
      dsimp only
      cases decode w with
      | error r => exact ⟨st, some w, rfl⟩
      | ok i => exact exec_withUnread_exists i s st u

/-- Settles O48: the two steps run in lockstep through every arm. -/
theorem soundTimerUnread : Obligations.SoundTimerUnread := by
  intro s t st u h
  obtain ⟨st', u', h'⟩ := step_withUnread s st u
  rw [h] at h'
  exact ⟨t.withUnread st' u', h', rfl⟩

/-! ### Reset (R39, R60, R61, R230) -/

theorem resetByte_glyphTable (p : Params) (image : List Byte) {a : Nat} (h : a < 80) :
    resetByte p image a = p.glyphTable[a] := dif_pos h

theorem resetByte_lowRam (p : Params) (image : List Byte) {a : Nat} (h : a < 432) :
    resetByte p image (0x050 + a) = p.initLowRam[a] := by
  rw [resetByte, dif_neg (by omega), dif_pos (by omega)]
  congr 1
  omega

theorem resetByte_image (p : Params) (image : List Byte) (k : Nat) :
    resetByte p image (0x200 + k) = image.getD k 0 := by
  rw [resetByte, dif_neg (by omega), dif_neg (by omega), Nat.add_sub_cancel_left]

theorem resetOutputs_eq (image : List Byte) :
    resetOutputs image = if 3584 < image.length then [.truncated] else [] := by
  simp only [resetOutputs, imageWellFormed, decide_eq_true_eq, ← Nat.not_lt, ite_not]

/-- Settles O53: the registers by definition, memory by the reset byte of each range. -/
theorem resetState : Obligations.ResetState := by
  intro p s image
  have hread : ∀ a < 4096, (s.resetWith p image).mem.read a = resetByte p image a := s.read_resetWith p image
  refine ⟨s.resetWith p image, rfl, rfl, rfl, rfl, rfl, rfl, rfl, rfl, rfl, rfl, rfl, rfl, rfl, ?_, ?_, ?_, ?_, ?_⟩
  · intro a ha
    rw [hread a (by omega), resetByte_glyphTable]
  · intro a ha
    rw [hread _ (by omega), resetByte_lowRam]
  · intro k hk hlt
    rw [hread _ (by omega), resetByte_image, List.getD_eq_getElem]
  · intro k hk hlt
    rw [hread _ (by omega), resetByte_image, List.getD_eq_default _ _ hk]
  · exact resetOutputs_eq image

/-! ### The random byte (R33, R143) -/

theorem selectedBy_rnd : SelectedBy 0xC000 0xF000 (fun w => .rnd (fieldX w) (fieldKk w)) := by
  intro w hw
  have hf : fieldFamily w = 0xC#4 := (selects_family w 0xC#4).mp hw
  simp only [decode, hf]

/-- Settles O26: one register write of the drawn byte under the mask; the frame is that of the access table. -/
theorem randomUnderMask : Obligations.RandomUnderMask := by
  refine ⟨selectedBy_rnd, fun x kk s => ?_⟩
  have h : exec (.rnd x kk) s =
      .next ((s.drawByte.2).writeV x (kk &&& Config.randomByte s.draws)).advance := rfl
  refine ⟨_, h, State.readV_writeV_same .., rfl, rfl, ?_, ?_⟩
  · intro r hr
    exact exec_readV_of_not_regWritten h fun he => hr (List.mem_singleton.mpr he)
  · exact WritesOnly.unchanged rfl

end Sys2Proof.Machine
end

