-- ==== Sys2Proof/Proofs/Memory.lean ====
section
/-! PROOFS. The family 20_memory: the checks of one access, a store seen by the next fetch, and the glyph table under policy
Fatal. -/

namespace Sys2Proof.Machine

/-! ### The checks of one access (R51, R52) -/

theorem checkWrite_outside (p : GlyphPolicy) {a : Nat} (h : 4096 ≤ a) : checkWrite p a = some (.outOfRange a) :=
  if_pos h

theorem checkWrite_fatal_glyph {a : Nat} (h : a ≤ 0x04F) : checkWrite .fatal a = some (.glyph a) := by
  rw [checkWrite, if_neg (by omega), if_pos ⟨h, rfl⟩]

/-- Settles O39, by the checks' definitions and read after write. -/
theorem accessChecks : Obligations.AccessChecks := by
  refine ⟨fun _ => rfl, fun p a => ⟨checkWrite_outside p, checkWrite_fatal_glyph, fun h => ?_, fun hg h => ?_⟩,
    Memory.read_write⟩
  · exact (checkWrite_eq_none ..).mpr ⟨by omega, fun hp => nomatch hp.2⟩
  · exact (checkWrite_eq_none ..).mpr ⟨h, fun hp => by omega⟩

/-! ### What a store whose checks pass answers (R53, R169, R170) -/

/-- A store passes its checks if it ends below 4096 and, where it starts in the glyph table, the policy is Write. -/
theorem checkBlock_write_passes {p : GlyphPolicy} {a n : Nat} (h : a + n ≤ 4096) (hg : a ≤ 0x04F → p = .write) :
    checkBlock (checkWrite p) a n = none := by
  refine (checkBlock_write_eq_none ..).mpr (.inr ⟨h, ?_⟩)
  rintro ⟨ha, rfl⟩
  cases hg ha

theorem exec_ldMemVx_of_checked {x : Reg} {s : State} (h : s.I.toNat + (x.toNat + 1) ≤ 4096)
    (hg : s.I.toNat ≤ 0x04F → s.glyphPolicy = .write) :
    exec (.ldMemVx x) s =
      .next ({ s with mem := s.mem.writeBlock s.I.toNat (s.blockBytes x), I := s.indexAfterBlock x }).advance :=
  (State.guarded_eq ..).mpr (.inr ⟨checkBlock_write_passes h hg, rfl⟩)

theorem exec_ldBVx_of_checked {s : State} (x : Reg) (h : s.I.toNat + 3 ≤ 4096)
    (hg : s.I.toNat ≤ 0x04F → s.glyphPolicy = .write) :
    exec (.ldBVx x) s =
      .next ({ s with mem := s.mem.writeBlock s.I.toNat (bcdDigits (s.readV x)) }).advance :=
  (State.guarded_eq ..).mpr (.inr ⟨checkBlock_write_passes h hg, rfl⟩)

/-! ### A store seen by the next fetch (R64, R237) -/

/-- The k-th byte of a written block reads back at `a + k` (R56, R57). -/
theorem Memory.read_writeBlock_at (m : Memory) (a : Nat) {vs : List Byte} {k : Nat} (hk : k < vs.length) :
    (m.writeBlock a vs).read (a + k) = vs.getD k 0 := by
  rw [Memory.read_writeBlock, if_pos (by omega), Nat.add_sub_cancel_left]

theorem Memory.read_writeBlock_start (m : Memory) (a : Nat) {vs : List Byte} (h : 0 < vs.length) :
    (m.writeBlock a vs).read a = vs.getD 0 0 := m.read_writeBlock_at a h

/-- The byte after a written block is the old one. -/
theorem Memory.read_writeBlock_end (m : Memory) (a : Nat) (vs : List Byte) :
    (m.writeBlock a vs).read (a + vs.length) = m.read (a + vs.length) := by
  rw [Memory.read_writeBlock, if_neg (by omega)]

/-- The byte of a register block at the place of a register it holds is that register (R170). -/
theorem State.getD_blockBytes_reg (s : State) {x r : Reg} (h : r.toNat ≤ x.toNat) :
    (s.blockBytes x).getD r.toNat 0 = s.readV r := s.getD_blockBytes x r.toNat h

/-- After two or more bytes were written at `pc`, the fetch reads the first two. -/
theorem State.fetch_of_writeBlock {t : State} {m : Memory} {p : Word} {vs : List Byte} (hp : t.pc = p)
    (ht : t.mem = m.writeBlock p.toNat vs) (hlt : p.toNat + 1 < 4096) (hvs : 2 ≤ vs.length) :
    t.fetch = some (wordOfBytes (vs.getD 0 0) (vs.getD 1 0)) := by
  subst hp
  refine (State.fetch_eq_some ..).mpr ⟨hlt, ?_⟩
  rw [ht, m.read_writeBlock_start _ (by omega), m.read_writeBlock_at _ (k := 1) (by omega)]

/-- After one byte was written at `pc`, the fetch reads it and the old second byte. -/
theorem State.fetch_of_writeBlock_one {t : State} {m : Memory} {p : Word} {vs : List Byte} (hp : t.pc = p)
    (ht : t.mem = m.writeBlock p.toNat vs) (hlt : p.toNat + 1 < 4096) (hvs : vs.length = 1) :
    t.fetch = some (wordOfBytes (vs.getD 0 0) (m.read (p.toNat + 1))) := by
  subst hp
  refine (State.fetch_eq_some ..).mpr ⟨hlt, ?_⟩
  rw [ht, m.read_writeBlock_start _ (by omega), ← hvs, m.read_writeBlock_end]

/-- The word whose bytes are the hundreds and the tens digit of a byte (R169). -/
theorem bcdWord_toNat (v : Byte) :
    (wordOfBytes ((bcdDigits v).getD 0 0) ((bcdDigits v).getD 1 0)).toNat =
      v.toNat / 100 * 256 + v.toNat / 10 % 10 := by
  have hv := v.isLt
  simp only [bcdDigits, List.getD_cons_zero, List.getD_cons_succ, wordOfBytes_toNat, BitVec.toNat_ofNat]
  omega

/-- Settles O40: the store writes from the address that the next fetch reads from. -/
theorem storeThenFetch : Obligations.StoreThenFetch := by
  refine ⟨fun x s hx hI h hg => ?_, fun s hI h hg => ?_, fun x s hI h hg => ?_⟩
  · refine ⟨_, exec_ldMemVx_of_checked h hg, ?_⟩
    rw [← s.getD_blockBytes_reg (x := x) (r := 0x0) (Nat.zero_le _), ← s.getD_blockBytes_reg (x := x) (r := 0x1) hx]
    exact State.fetch_of_writeBlock hI.symm rfl (by omega) (by rw [State.length_blockBytes]; omega)
  · refine ⟨_, exec_ldMemVx_of_checked (show s.I.toNat + 1 ≤ 4096 by omega) hg, ?_⟩
    rw [← s.getD_blockBytes_reg (x := 0x0) (r := 0x0) (Nat.zero_le _)]
    exact State.fetch_of_writeBlock_one hI.symm rfl (by omega) (s.length_blockBytes 0x0)
  · refine ⟨_, _, exec_ldBVx_of_checked x h hg, ?_, bcdWord_toNat (s.readV x)⟩
    exact State.fetch_of_writeBlock hI.symm rfl (by omega) (Nat.le_succ 2)

/-! ### The glyph table under policy Fatal (R52, R58) -/

/-- An instruction that changes memory has passed the checks of its whole block (R53). -/
theorem exec_mem_eq_or_checked {i : Instr} {s t : State} (h : exec i s = .next t) :
    t.mem = s.mem ∨ checkBlock (checkWrite s.glyphPolicy) s.I.toNat (bytesStored i) = none := by
  cases i
  case ldBVx | ldMemVx =>
    rcases State.guarded_eq_next h with ⟨f, rfl⟩ | ⟨hc, _⟩
    · exact .inl rfl
    · exact .inr hc
  all_goals exact .inl (exec_mem_eq h (by simp [fieldsWritten]))

/-- A block that passed its checks under policy Fatal holds no address of the glyph table (R52). -/
theorem not_mem_block_of_checked {a b n : Nat} (hc : checkBlock (checkWrite .fatal) a n = none) (hb : b < 80) :
    ¬ (a ≤ b ∧ b < a + n) := by
  rcases (checkBlock_write_eq_none ..).mp hc with h0 | ⟨_, hg⟩
  · omega
  · have ha : ¬ a ≤ 0x04F := fun ha => hg ⟨ha, rfl⟩
    omega

theorem exec_keeps_glyphTable {i : Instr} {s t : State} (hp : s.glyphPolicy = .fatal) (h : exec i s = .next t)
    {a : Nat} (ha : a < 80) : t.mem.read a = s.mem.read a := by
  rcases exec_mem_eq_or_checked h with hm | hc
  · rw [hm]
  · rw [hp] at hc
    exact exec_bytesUnchanged h a (not_mem_block_of_checked hc ha)

/-- Settles O44: only a routine writes memory, and outside the glyph table. -/
theorem glyphTableConstant : Obligations.GlyphTableConstant := by
  intro s t hp h a ha
  rcases step_eq_next h with ⟨_, rfl⟩ | ⟨_, _, rfl⟩ | ⟨w, _, _, _, rfl⟩ | ⟨w, i, _, _, _, h⟩
  · rfl
  · rfl
  · rfl
  · exact exec_keeps_glyphTable hp h ha

end Sys2Proof.Machine
end

