-- ==== Sys2Proof/Proofs/Encoding.lean ====
section
/-! PROOFS. The family 30_encoding: the fields of a word, decode and encode as inverses, dispatch by the 34 rows, the
undefined words, and what a step does with the word it fetches. -/

namespace Sys2Proof.Machine

/-! ### The fields of a word (30_encoding.md R71) -/

/-- A field of a word is the word shifted down and masked. -/
theorem extract_toNat (w : Word) (start len : Nat) :
    (w.extractLsb' start len).toNat = (w.toNat >>> start) &&& (2 ^ len - 1) := by
  rw [BitVec.extractLsb'_toNat, Nat.and_two_pow_sub_one_eq_mod]

/-- Settles O1: each field is an extraction. -/
theorem fieldsOfWord : Obligations.FieldsOfWord := fun w =>
  ⟨extract_toNat w 12 4, extract_toNat w 0 12, extract_toNat w 0 8, extract_toNat w 0 4, extract_toNat w 8 4,
    extract_toNat w 4 4⟩

/-! ### Decode after encode (R76) -/

/-- Decoding the word of an instruction gives the instruction: the family picks the arm, the fields are the operands. -/
theorem decode_encode (i : Instr) : decode (encode i) = .ok i := by
  cases i
  case cls | ret => simp [encode, decode, decode0]
  case ldReg | or | and | xor | addReg | sub | shr | subn | shl => simp [encode, decode, decode8]
  case skp | sknp => simp [encode, decode, decodeE]
  case ldVxDt | ldVxK | ldDtVx | ldStVx | addIVx | ldFVx | ldBVx | ldMemVx | ldVxMem =>
    simp [encode, decode, decodeF]
  all_goals simp [encode, decode]

/-- Settles O2, one instruction at a time. -/
theorem decodeEncode : Obligations.DecodeEncode := decode_encode

/-! ### A word from its fields (R71) -/

section
variable {w : Word} {f n : BitVec 4} {kk : Byte}

theorem word_of_nnn (hf : fieldFamily w = f) : (f ++ fieldNnn w : Word) = w := by
  subst hf; exact word_eq_nnn w

theorem word_of_xkk (hf : fieldFamily w = f) (hk : fieldKk w = kk) : (f ++ fieldX w ++ kk : Word) = w := by
  subst hf hk; exact word_eq_xkk w

theorem word_of_xyn (hf : fieldFamily w = f) (hn : fieldN w = n) :
    (f ++ fieldX w ++ fieldY w ++ n : Word) = w := by
  subst hf hn; exact word_eq_xyn w

theorem word_of_mid (hf : fieldFamily w = f) (hn : fieldN w = n) : (f ++ fieldMid w ++ n : Word) = w := by
  subst hf hn; exact word_eq_mid w

end

/-! ### Encode after decode (R71, R75, R76) -/

section
variable {w : Word} {i : Instr}

theorem encode_of_decode0 (hf : fieldFamily w = 0x0) (h : decode0 w = .ok i) : encode i = w := by
  unfold decode0 at h
  split at h <;> cases h
  all_goals exact word_of_mid hf ‹_›

theorem encode_of_decode8 (hf : fieldFamily w = 0x8) (h : decode8 w = .ok i) : encode i = w := by
  unfold decode8 at h
  split at h <;> cases h
  all_goals exact word_of_xyn hf ‹_›

theorem encode_of_decodeE (hf : fieldFamily w = 0xE) (h : decodeE w = .ok i) : encode i = w := by
  unfold decodeE at h
  split at h <;> cases h
  all_goals exact word_of_xkk hf ‹_›

theorem encode_of_decodeF (hf : fieldFamily w = 0xF) (h : decodeF w = .ok i) : encode i = w := by
  unfold decodeF at h
  split at h <;> cases h
  all_goals exact word_of_xkk hf ‹_›

end

/-- The first level of dispatch (R73): families 0, 8, E and F go to a second level, every other word is an
instruction's. -/
theorem decode_cases (w : Word) :
    (fieldFamily w = 0x0 ∧ decode w = decode0 w) ∨ (fieldFamily w = 0x8 ∧ decode w = decode8 w) ∨
    (fieldFamily w = 0xE ∧ decode w = decodeE w) ∨ (fieldFamily w = 0xF ∧ decode w = decodeF w) ∨
    (fieldFamily w ∉ [0x0#4, 0x8#4, 0xE#4, 0xF#4] ∧ ∃ i, decode w = .ok i ∧ encode i = w) := by
  unfold decode
  split
  case h_1 hf => exact .inl ⟨hf, rfl⟩
  case h_9 hf => exact .inr (.inl ⟨hf, rfl⟩)
  case h_15 hf => exact .inr (.inr (.inl ⟨hf, rfl⟩))
  case h_16 => exact .inr (.inr (.inr (.inl ⟨by apply family_last <;> assumption, rfl⟩)))
  all_goals refine .inr (.inr (.inr (.inr ⟨by simp [*], _, rfl, ?_⟩)))
  case h_2 hf | h_3 hf | h_11 hf | h_12 hf => exact word_of_nnn hf
  case h_4 hf | h_5 hf | h_7 hf | h_8 hf | h_13 hf => exact word_of_xkk hf rfl
  case h_6 hf | h_10 hf | h_14 hf => exact word_of_xyn hf rfl

theorem encode_decode {w : Word} {i : Instr} (h : decode w = .ok i) : encode i = w := by
  rcases decode_cases w with ⟨hf, hd⟩ | ⟨hf, hd⟩ | ⟨hf, hd⟩ | ⟨hf, hd⟩ | ⟨-, j, hd, hj⟩ <;> rw [hd] at h
  · exact encode_of_decode0 hf h
  · exact encode_of_decode8 hf h
  · exact encode_of_decodeE hf h
  · exact encode_of_decodeF hf h
  · exact Except.ok.inj h ▸ hj

/-- Settles O3: each arm fixes the fields that its instruction does not carry. -/
theorem encodeDecode : Obligations.EncodeDecode := fun _ _ => encode_decode

/-! ### The undefined words (R74, R77) -/

section
variable (w : Word)

theorem decode0_eq_error_iff :
    decode0 w = .error (.undefinedWord w) ↔ fieldN w ≠ 0x0 ∧ fieldN w ≠ 0xE := by
  unfold decode0
  split <;> simp_all

/-- A nibble that is none of 0 to 7 is 8 or more. -/
theorem eight_le_of_ne {n : BitVec 4} (h0 : n ≠ 0x0#4) (h1 : n ≠ 0x1#4) (h2 : n ≠ 0x2#4) (h3 : n ≠ 0x3#4)
    (h4 : n ≠ 0x4#4) (h5 : n ≠ 0x5#4) (h6 : n ≠ 0x6#4) (h7 : n ≠ 0x7#4) : 8 ≤ n.toNat := by
  bv_omega

theorem decode8_eq_error_iff :
    decode8 w = .error (.undefinedWord w) ↔ 8 ≤ (fieldN w).toNat ∧ fieldN w ≠ 0xE := by
  unfold decode8
  split
  case h_10 => exact iff_of_true rfl ⟨by apply eight_le_of_ne <;> assumption, ‹_›⟩
  all_goals simp [*]

theorem decodeE_eq_error_iff :
    decodeE w = .error (.undefinedWord w) ↔ fieldKk w ≠ 0x9E ∧ fieldKk w ≠ 0xA1 := by
  unfold decodeE
  split <;> simp_all

theorem decodeF_eq_error_iff :
    decodeF w = .error (.undefinedWord w) ↔
      fieldKk w ∉ [0x07, 0x0A, 0x15, 0x18, 0x1E, 0x29, 0x33, 0x55, 0x65] := by
  unfold decodeF
  split <;> simp_all

end

/-- Settles O5: only the second levels of families 0, 8, E and F reject a word. -/
theorem undefinedWords : Obligations.UndefinedWords := by
  intro w
  rcases decode_cases w with ⟨hf, hd⟩ | ⟨hf, hd⟩ | ⟨hf, hd⟩ | ⟨hf, hd⟩ | ⟨hf, i, hd, -⟩ <;> rw [hd]
  · simp [hf, decode0_eq_error_iff]
  · simp [hf, decode8_eq_error_iff]
  · simp [hf, decodeE_eq_error_iff]
  · simp [hf, decodeF_eq_error_iff]
  · simp_all

/-! ### The word of a row decodes to its instruction (R76) -/

/-- A row that fixes the family selects the words of `mk`, if `mk` reads the operands back. -/
theorem selectedBy_family (f : BitVec 4) {mk : Word → Instr} (h : ∀ w, fieldFamily w = f → encode (mk w) = w) :
    SelectedBy (f ++ 0#12) 0xF000 mk := by
  intro w hw
  have he := h w ((selects_family w f).mp hw)
  simpa only [he] using decode_encode (mk w)

/-- A row that fixes the family and `n` selects the words of `mk`, if `mk` reads the operands back. -/
theorem selectedBy_familyN (f n : BitVec 4) {mk : Word → Instr}
    (h : ∀ w, fieldFamily w = f → fieldN w = n → encode (mk w) = w) : SelectedBy (f ++ 0#8 ++ n) 0xF00F mk := by
  intro w hw
  obtain ⟨hf, hn⟩ := (selects_familyN w f n).mp hw
  simpa only [h w hf hn] using decode_encode (mk w)

/-- A row that fixes the family and `kk` selects the words of `mk`, if `mk` reads the operands back. -/
theorem selectedBy_familyKk (f : BitVec 4) (kk : Byte) {mk : Word → Instr}
    (h : ∀ w, fieldFamily w = f → fieldKk w = kk → encode (mk w) = w) : SelectedBy (f ++ 0#4 ++ kk) 0xF0FF mk := by
  intro w hw
  obtain ⟨hf, hk⟩ := (selects_familyKk w f kk).mp hw
  simpa only [h w hf hk] using decode_encode (mk w)

theorem selectedBy_cls : SelectedBy 0x0000 0xF00F (fun w => .cls (fieldMid w)) :=
  selectedBy_familyN 0x0 0x0 fun _ => word_of_mid

theorem selectedBy_ret : SelectedBy 0x000E 0xF00F (fun w => .ret (fieldMid w)) :=
  selectedBy_familyN 0x0 0xE fun _ => word_of_mid

theorem selectedBy_jp : SelectedBy 0x1000 0xF000 (fun w => .jp (fieldNnn w)) :=
  selectedBy_family 0x1 fun _ => word_of_nnn

theorem selectedBy_call : SelectedBy 0x2000 0xF000 (fun w => .call (fieldNnn w)) :=
  selectedBy_family 0x2 fun _ => word_of_nnn

theorem selectedBy_seImm : SelectedBy 0x3000 0xF000 (fun w => .seImm (fieldX w) (fieldKk w)) :=
  selectedBy_family 0x3 fun _ hf => word_of_xkk hf rfl

theorem selectedBy_sneImm : SelectedBy 0x4000 0xF000 (fun w => .sneImm (fieldX w) (fieldKk w)) :=
  selectedBy_family 0x4 fun _ hf => word_of_xkk hf rfl

theorem selectedBy_seReg : SelectedBy 0x5000 0xF000 (fun w => .seReg (fieldX w) (fieldY w) (fieldN w)) :=
  selectedBy_family 0x5 fun _ hf => word_of_xyn hf rfl

theorem selectedBy_ldImm : SelectedBy 0x6000 0xF000 (fun w => .ldImm (fieldX w) (fieldKk w)) :=
  selectedBy_family 0x6 fun _ hf => word_of_xkk hf rfl

theorem selectedBy_addImm : SelectedBy 0x7000 0xF000 (fun w => .addImm (fieldX w) (fieldKk w)) :=
  selectedBy_family 0x7 fun _ hf => word_of_xkk hf rfl

theorem selectedBy_ldReg : SelectedBy 0x8000 0xF00F (fun w => .ldReg (fieldX w) (fieldY w)) :=
  selectedBy_familyN 0x8 0x0 fun _ => word_of_xyn

theorem selectedBy_or : SelectedBy 0x8001 0xF00F (fun w => .or (fieldX w) (fieldY w)) :=
  selectedBy_familyN 0x8 0x1 fun _ => word_of_xyn

theorem selectedBy_and : SelectedBy 0x8002 0xF00F (fun w => .and (fieldX w) (fieldY w)) :=
  selectedBy_familyN 0x8 0x2 fun _ => word_of_xyn

theorem selectedBy_xor : SelectedBy 0x8003 0xF00F (fun w => .xor (fieldX w) (fieldY w)) :=
  selectedBy_familyN 0x8 0x3 fun _ => word_of_xyn

theorem selectedBy_addReg : SelectedBy 0x8004 0xF00F (fun w => .addReg (fieldX w) (fieldY w)) :=
  selectedBy_familyN 0x8 0x4 fun _ => word_of_xyn

theorem selectedBy_sub : SelectedBy 0x8005 0xF00F (fun w => .sub (fieldX w) (fieldY w)) :=
  selectedBy_familyN 0x8 0x5 fun _ => word_of_xyn

theorem selectedBy_shr : SelectedBy 0x8006 0xF00F (fun w => .shr (fieldX w) (fieldY w)) :=
  selectedBy_familyN 0x8 0x6 fun _ => word_of_xyn

theorem selectedBy_subn : SelectedBy 0x8007 0xF00F (fun w => .subn (fieldX w) (fieldY w)) :=
  selectedBy_familyN 0x8 0x7 fun _ => word_of_xyn

theorem selectedBy_shl : SelectedBy 0x800E 0xF00F (fun w => .shl (fieldX w) (fieldY w)) :=
  selectedBy_familyN 0x8 0xE fun _ => word_of_xyn

theorem selectedBy_sneReg : SelectedBy 0x9000 0xF000 (fun w => .sneReg (fieldX w) (fieldY w) (fieldN w)) :=
  selectedBy_family 0x9 fun _ hf => word_of_xyn hf rfl

theorem selectedBy_ldI : SelectedBy 0xA000 0xF000 (fun w => .ldI (fieldNnn w)) :=
  selectedBy_family 0xA fun _ => word_of_nnn

theorem selectedBy_jpV0 : SelectedBy 0xB000 0xF000 (fun w => .jpV0 (fieldNnn w)) :=
  selectedBy_family 0xB fun _ => word_of_nnn

theorem selectedBy_drw : SelectedBy 0xD000 0xF000 (fun w => .drw (fieldX w) (fieldY w) (fieldN w)) :=
  selectedBy_family 0xD fun _ hf => word_of_xyn hf rfl

theorem selectedBy_skp : SelectedBy 0xE09E 0xF0FF (fun w => .skp (fieldX w)) :=
  selectedBy_familyKk 0xE 0x9E fun _ => word_of_xkk

theorem selectedBy_sknp : SelectedBy 0xE0A1 0xF0FF (fun w => .sknp (fieldX w)) :=
  selectedBy_familyKk 0xE 0xA1 fun _ => word_of_xkk

theorem selectedBy_ldVxDt : SelectedBy 0xF007 0xF0FF (fun w => .ldVxDt (fieldX w)) :=
  selectedBy_familyKk 0xF 0x07 fun _ => word_of_xkk

theorem selectedBy_ldVxK : SelectedBy 0xF00A 0xF0FF (fun w => .ldVxK (fieldX w)) :=
  selectedBy_familyKk 0xF 0x0A fun _ => word_of_xkk

theorem selectedBy_ldDtVx : SelectedBy 0xF015 0xF0FF (fun w => .ldDtVx (fieldX w)) :=
  selectedBy_familyKk 0xF 0x15 fun _ => word_of_xkk

theorem selectedBy_ldStVx : SelectedBy 0xF018 0xF0FF (fun w => .ldStVx (fieldX w)) :=
  selectedBy_familyKk 0xF 0x18 fun _ => word_of_xkk

theorem selectedBy_addIVx : SelectedBy 0xF01E 0xF0FF (fun w => .addIVx (fieldX w)) :=
  selectedBy_familyKk 0xF 0x1E fun _ => word_of_xkk

theorem selectedBy_ldFVx : SelectedBy 0xF029 0xF0FF (fun w => .ldFVx (fieldX w)) :=
  selectedBy_familyKk 0xF 0x29 fun _ => word_of_xkk

theorem selectedBy_ldBVx : SelectedBy 0xF033 0xF0FF (fun w => .ldBVx (fieldX w)) :=
  selectedBy_familyKk 0xF 0x33 fun _ => word_of_xkk

theorem selectedBy_ldMemVx : SelectedBy 0xF055 0xF0FF (fun w => .ldMemVx (fieldX w)) :=
  selectedBy_familyKk 0xF 0x55 fun _ => word_of_xkk

theorem selectedBy_ldVxMem : SelectedBy 0xF065 0xF0FF (fun w => .ldVxMem (fieldX w)) :=
  selectedBy_familyKk 0xF 0x65 fun _ => word_of_xkk

/-! ### Dispatch by the table (R76) -/

/-- A word that selects a row of the table decodes to an instruction of the row. -/
theorem decode_of_selects {r : Row} {w : Word} (hr : r ∈ opcodeTable) (hw : w &&& r.mask = r.pattern) :
    ∃ i, decode w = .ok i ∧ i.row = r := by
  simp only [opcodeTable, List.mem_append] at hr
  rcases hr with ((hr | hr) | hr) | hr <;> fin_cases hr
  · exact ⟨_, selectedBy_cls w hw, rfl⟩
  · exact ⟨_, selectedBy_ret w hw, rfl⟩
  · exact ⟨_, selectedBy_jp w hw, rfl⟩
  · exact ⟨_, selectedBy_call w hw, rfl⟩
  · exact ⟨_, selectedBy_seImm w hw, rfl⟩
  · exact ⟨_, selectedBy_sneImm w hw, rfl⟩
  · exact ⟨_, selectedBy_seReg w hw, rfl⟩
  · exact ⟨_, selectedBy_ldImm w hw, rfl⟩
  · exact ⟨_, selectedBy_addImm w hw, rfl⟩
  · exact ⟨_, selectedBy_ldReg w hw, rfl⟩
  · exact ⟨_, selectedBy_or w hw, rfl⟩
  · exact ⟨_, selectedBy_and w hw, rfl⟩
  · exact ⟨_, selectedBy_xor w hw, rfl⟩
  · exact ⟨_, selectedBy_addReg w hw, rfl⟩
  · exact ⟨_, selectedBy_sub w hw, rfl⟩
  · exact ⟨_, selectedBy_shr w hw, rfl⟩
  · exact ⟨_, selectedBy_subn w hw, rfl⟩
  · exact ⟨_, selectedBy_shl w hw, rfl⟩
  · exact ⟨_, selectedBy_sneReg w hw, rfl⟩
  · exact ⟨_, selectedBy_ldI w hw, rfl⟩
  · exact ⟨_, selectedBy_jpV0 w hw, rfl⟩
  · exact ⟨_, selectedBy_rnd w hw, rfl⟩
  · exact ⟨_, selectedBy_drw w hw, rfl⟩
  · exact ⟨_, selectedBy_skp w hw, rfl⟩
  · exact ⟨_, selectedBy_sknp w hw, rfl⟩
  · exact ⟨_, selectedBy_ldVxDt w hw, rfl⟩
  · exact ⟨_, selectedBy_ldVxK w hw, rfl⟩
  · exact ⟨_, selectedBy_ldDtVx w hw, rfl⟩
  · exact ⟨_, selectedBy_ldStVx w hw, rfl⟩
  · exact ⟨_, selectedBy_addIVx w hw, rfl⟩
  · exact ⟨_, selectedBy_ldFVx w hw, rfl⟩
  · exact ⟨_, selectedBy_ldBVx w hw, rfl⟩
  · exact ⟨_, selectedBy_ldMemVx w hw, rfl⟩
  · exact ⟨_, selectedBy_ldVxMem w hw, rfl⟩

/-- The word of an instruction selects the instruction's row, a row of the table. -/
theorem rowOfWord (i : Instr) : Laws.RowOfWord.Statement i := by
  cases i with
  | cls x => exact Laws.RowOfWord.cls x
  | ret x => exact Laws.RowOfWord.ret x
  | jp x => exact Laws.RowOfWord.jp x
  | call x => exact Laws.RowOfWord.call x
  | seImm x y => exact Laws.RowOfWord.seImm x y
  | sneImm x y => exact Laws.RowOfWord.sneImm x y
  | seReg x y z => exact Laws.RowOfWord.seReg x y z
  | ldImm x y => exact Laws.RowOfWord.ldImm x y
  | addImm x y => exact Laws.RowOfWord.addImm x y
  | ldReg x y => exact Laws.RowOfWord.ldReg x y
  | or x y => exact Laws.RowOfWord.or x y
  | and x y => exact Laws.RowOfWord.and x y
  | xor x y => exact Laws.RowOfWord.xor x y
  | addReg x y => exact Laws.RowOfWord.addReg x y
  | sub x y => exact Laws.RowOfWord.sub x y
  | shr x y => exact Laws.RowOfWord.shr x y
  | subn x y => exact Laws.RowOfWord.subn x y
  | shl x y => exact Laws.RowOfWord.shl x y
  | sneReg x y z => exact Laws.RowOfWord.sneReg x y z
  | ldI x => exact Laws.RowOfWord.ldI x
  | jpV0 x => exact Laws.RowOfWord.jpV0 x
  | rnd x y => exact Laws.RowOfWord.rnd x y
  | drw x y z => exact Laws.RowOfWord.drw x y z
  | skp x => exact Laws.RowOfWord.skp x
  | sknp x => exact Laws.RowOfWord.sknp x
  | ldVxDt x => exact Laws.RowOfWord.ldVxDt x
  | ldVxK x => exact Laws.RowOfWord.ldVxK x
  | ldDtVx x => exact Laws.RowOfWord.ldDtVx x
  | ldStVx x => exact Laws.RowOfWord.ldStVx x
  | addIVx x => exact Laws.RowOfWord.addIVx x
  | ldFVx x => exact Laws.RowOfWord.ldFVx x
  | ldBVx x => exact Laws.RowOfWord.ldBVx x
  | ldMemVx x => exact Laws.RowOfWord.ldMemVx x
  | ldVxMem x => exact Laws.RowOfWord.ldVxMem x

theorem row_mem_opcodeTable (i : Instr) : i.row ∈ opcodeTable := (rowOfWord i).1

/-- A word that decodes selects the row of its instruction. -/
theorem selects_of_decode {w : Word} {i : Instr} (h : decode w = .ok i) : w &&& i.row.mask = i.row.pattern := by
  have hs := (rowOfWord i).2
  rw [encode_decode h] at hs
  exact beq_iff_eq.mp hs

/-- No word selects two rows: it has one instruction, and that one row. -/
theorem row_unique {w : Word} {r q : Row} (hr : r ∈ opcodeTable) (hq : q ∈ opcodeTable)
    (hrw : w &&& r.mask = r.pattern) (hqw : w &&& q.mask = q.pattern) : r = q := by
  obtain ⟨i, hi, rfl⟩ := decode_of_selects hr hrw
  obtain ⟨j, hj, rfl⟩ := decode_of_selects hq hqw
  rw [Except.ok.inj (hi.symm.trans hj)]

/-- A word is undefined iff it selects no row (R77). -/
theorem decode_eq_error_iff (w : Word) :
    decode w = .error (.undefinedWord w) ↔ ∀ r ∈ opcodeTable, w &&& r.mask ≠ r.pattern := by
  constructor
  · intro h r hr hw
    obtain ⟨i, hi, -⟩ := decode_of_selects hr hw
    exact nomatch hi.symm.trans h
  · intro h
    cases hd : decode w with
    | ok i => exact absurd (selects_of_decode hd) (h i.row (row_mem_opcodeTable i))
    | error e => rw [decode_error hd]

/-- Settles O4: a row's words decode to its instructions, and a decoded word is its instruction's. -/
theorem dispatchByTable : Obligations.DispatchByTable := by
  refine ⟨rfl, fun w r hr => ⟨decode_of_selects hr, ?_⟩, fun _ _ _ => row_unique, decode_eq_error_iff⟩
  rintro ⟨i, hi, rfl⟩
  exact selects_of_decode hi

/-- Settles O6: each vector evaluated. -/
theorem decodeVectors : Obligations.DecodeVectors := by
  unfold Obligations.DecodeVectors
  decide

/-! ### What a step does with the word it fetches (R70, R78, R81) -/

theorem step_of_halted {s : State} {f : Fatal} (hh : s.halted = some f) : step s = .next s := by
  simp only [step, hh]

section
variable {s : State} {w : Word} {i : Instr} (hh : s.halted = none)
include hh

theorem step_of_decoded (hf : s.fetch = some w) (hd : decode w = .ok i) : step s = exec i s := by
  simp only [step, hh, hf, hd]

theorem step_of_undefined (hf : s.fetch = some w) (hd : decode w = .error (.undefinedWord w)) :
    step s = s.undefinedStep w := by
  simp only [step, hh, hf, hd]

theorem step_of_fetch_none (hf : s.fetch = none) : step s = s.fetchFails := by
  simp only [step, hh, hf]

theorem stepOutputs_of_decoded (hf : s.fetch = some w) (hd : decode w = .ok i) :
    stepOutputs s = .diag s.pc w :: fatalEvents (exec i s) := by
  simp only [stepOutputs, hh, hf, hd]

theorem stepOutputs_of_undefined (hf : s.fetch = some w) (hd : decode w = .error (.undefinedWord w)) :
    stepOutputs s = [.diag s.pc w, .undefinedOpcode s.pc w] := by
  simp only [stepOutputs, hh, hf, hd]

theorem stepOutputs_of_fetch_none (hf : s.fetch = none) : stepOutputs s = fatalEvents s.fetchFails := by
  simp only [stepOutputs, hh, hf]

end

/-- Settles O7, by the branches of the step. -/
theorem stepRunsDecoded : Obligations.StepRunsDecoded := fun _ _ _ => step_of_decoded

/-- Settles O8: where the fetch fails, and the value of the word of two bytes. -/
theorem fetchWord : Obligations.FetchWord := by
  refine ⟨fun s hh hpc => ?_, fun s hpc => ?_⟩
  · exact step_of_fetch_none hh ((State.fetch_eq_none s).mpr hpc)
  · exact ⟨s.wordAtPc, (State.fetch_eq_some ..).mpr ⟨hpc, rfl⟩, wordOfBytes_toNat ..⟩

/-- Settles O9: the handler is the step's branch for an undefined word, and so are its events. -/
theorem undefinedHandler : Obligations.UndefinedHandler := fun _ _ hh hf hd =>
  ⟨step_of_undefined hh hf hd, stepOutputs_of_undefined hh hf hd⟩

/-- Settles O54: the fatal event is read off the `halted` of the state the routine answers. -/
theorem stepEvents : Obligations.StepEvents := by
  intro s hh
  refine ⟨stepOutputs_of_fetch_none hh, fun w i t hf hd ht => ?_⟩
  rw [stepOutputs_of_decoded hh hf hd, ht]
  rfl

/-! ### Every step answers a next state (R200, R218) -/

theorem State.guarded_total (s : State) (e : Option AccessError) (w : Word) (t : State) :
    ∃ u, s.guarded e w t = .next u := by
  cases e <;> exact ⟨_, rfl⟩

/-- No routine faults or is refused: a fatal condition is a next state (R200). -/
theorem exec_total (i : Instr) (s : State) : ∃ t, exec i s = .next t := by
  cases i
  case ret | call | skp | sknp | ldVxK =>
    simp only [exec, execRet, execCall, execSkp, execSknp, execLdVxK]
    split <;> exact ⟨_, rfl⟩
  case drw | ldBVx | ldMemVx | ldVxMem => exact State.guarded_total s _ _ _
  all_goals exact ⟨_, rfl⟩

/-- Settles O12: a halted machine stays, and a running one raises, skips an undefined word, or runs a routine. -/
theorem stepTotal : Obligations.StepTotal := by
  intro s
  cases hh : s.halted with
  | some f => exact ⟨s, step_of_halted hh⟩
  | none =>
    cases hf : s.fetch with
    | none => exact ⟨_, step_of_fetch_none hh hf⟩
    | some w =>
      cases hd : decode w with
      | error r => exact ⟨_, step_of_undefined hh hf (decode_error hd ▸ hd)⟩
      | ok i => rw [step_of_decoded hh hf hd]; exact exec_total i s

end Sys2Proof.Machine
end

