-- ==== Sys2Proof/Proofs/Control.lean ====
section
/-! PROOFS. The family 40_control_and_immediate: call and return, screen clear, jumps, skips and immediates. Each
statement is the row of the instruction's words and what its routine answers. -/

namespace Sys2Proof.Machine

/-! ### Call and return (40_control_and_immediate.md R101, R103) -/

/-- `s` after a RET that pops: control is 2 above the last entry, which keeps its value (R101). -/
def State.returned (s : State) (h : 0 < s.sp.val) : State :=
  { s with sp := ⟨s.sp.val - 1, by omega⟩, pc := s.stack[s.sp.val - 1]'(by omega) + 2 }

/-- `s` after a CALL that pushes: the entry is the address of the call itself (R103). -/
def State.called (s : State) (nnn : Imm12) (h : s.sp.val < 16) : State :=
  { s with stack := s.stack.set s.sp.val s.pc h, sp := ⟨s.sp.val + 1, by omega⟩, pc := zext16 nnn }

theorem exec_ret_of_empty (ign : BitVec 8) {s : State} (h : s.sp.val = 0) :
    exec (.ret ign) s = .next (s.raise (.stackUnderflow s.pc (encode (.ret ign)))) := by
  have hp : s.pop = none := (State.pop_eq_none s).mpr h
  simp only [exec, execRet, hp]

theorem exec_ret_of_pos (ign : BitVec 8) {s : State} (h : 0 < s.sp.val) :
    exec (.ret ign) s = .next (s.returned h) := by
  have hp := (State.pop_eq_some s _ _).mpr ⟨h, rfl, rfl⟩
  simp only [exec, execRet, hp, State.returned]

theorem exec_call_of_full (nnn : Imm12) {s : State} (h : s.sp.val = 16) :
    exec (.call nnn) s = .next (s.raise (.stackOverflow s.pc (encode (.call nnn)))) := by
  have hp : s.push s.pc = none := (State.push_eq_none s s.pc).mpr h
  simp only [exec, execCall, hp]

theorem exec_call_of_lt (nnn : Imm12) {s : State} (h : s.sp.val < 16) :
    exec (.call nnn) s = .next (s.called nnn h) := by
  have hp := (State.push_eq_some s s.pc _).mpr ⟨h, rfl⟩
  simp only [exec, execCall, hp, State.called]

/-- After a CALL every stack entry is the old one, but for the call's own address at the old `sp` (R103). -/
theorem State.getElem_stack_called (s : State) (nnn : Imm12) (h : s.sp.val < 16) {k : Nat} (hk : k < 16) :
    (s.called nnn h).stack[k] = if k = s.sp.val then s.pc else s.stack[k] := by
  simp only [State.called, Vector.getElem_set, eq_comm]

theorem zext16_toNat (nnn : Imm12) : (zext16 nnn).toNat = nnn.toNat :=
  BitVec.toNat_setWidth_of_le (by decide)

/-- Settles O14: the two answers of a RET, by whether the stack is empty. -/
theorem retPops : Obligations.RetPops := by
  refine ⟨selectedBy_ret, fun ign _ => exec_ret_of_empty ign, fun ign s h => ?_⟩
  exact ⟨_, exec_ret_of_pos ign h, Nat.sub_add_cancel h, rfl, WritesOnly.unchanged rfl⟩

/-- Settles O16: the two answers of a CALL, by whether the stack is full. -/
theorem callPushes : Obligations.CallPushes := by
  refine ⟨selectedBy_call, fun nnn _ => exec_call_of_full nnn, fun nnn s h => ?_⟩
  exact ⟨_, exec_call_of_lt nnn h, rfl, zext16_toNat nnn, fun k hk => s.getElem_stack_called nnn h hk,
    WritesOnly.unchanged rfl⟩

/-- Settles O17: the entry a RET pops is the one the CALL pushed, its own address. -/
theorem callThenRet : Obligations.CallThenRet := by
  intro nnn ign s h
  have hpos : 0 < (s.called nnn h).sp.val := Nat.succ_pos _
  have hpop : (s.called nnn h).stack[s.sp.val] = s.pc := (s.getElem_stack_called nnn h h).trans (if_pos rfl)
  exact ⟨_, _, exec_call_of_lt nnn h, exec_ret_of_pos ign hpos, congrArg (· + 2) hpop, WritesOnly.unchanged rfl⟩

/-! ### Screen clear and jumps (R100, R102, R142) -/

/-- Settles O13: no cell of the blank framebuffer is lit. -/
theorem clsClears : Obligations.ClsClears :=
  ⟨selectedBy_cls, fun _ _ =>
    ⟨_, rfl, fun i _ => Framebuffer.cell_blank i, rfl, rfl, WritesOnly.unchanged rfl⟩⟩

/-- The target of JP_V0 does not wrap: it is at most 0xFFF + 0xFF (R142). -/
theorem State.indexedTarget_toNat (s : State) (nnn : Imm12) :
    (s.indexedTarget nnn).toNat = nnn.toNat + (s.readV V0).toNat := by
  have hn := nnn.isLt
  have hv := (s.readV V0).isLt
  rw [State.indexedTarget, BitVec.toNat_add, zext16_toNat, BitVec.toNat_setWidth_of_le (by decide),
    Nat.mod_eq_of_lt (by omega)]

/-- Settles O15: `pc` is the target, a natural number that 16 bits hold. -/
theorem jumpsGo : Obligations.JumpsGo :=
  ⟨selectedBy_jp, selectedBy_jpV0,
    fun nnn _ => ⟨_, rfl, zext16_toNat nnn, WritesOnly.unchanged rfl⟩,
    fun nnn s => ⟨_, rfl, s.indexedTarget_toNat nnn, WritesOnly.unchanged rfl⟩⟩

/-! ### Skips (R104 to R106, R140) -/

/-- A skip on a condition that `p` makes true and `q` false advances `pc` by 4 under `p`, by 2 under `q`, and changes
nothing else (R26). -/
theorem State.skipIf_spec (s : State) {c : Bool} {p q : Prop} (hp : p → c = true) (hq : q → c = false) :
    (p → (s.skipIf c).pc = s.pc + 4) ∧ (q → (s.skipIf c).pc = s.pc + 2) ∧ Unchanged [.pc] s (s.skipIf c) := by
  refine ⟨fun h => ?_, fun h => ?_, WritesOnly.unchanged rfl⟩
  · rw [hp h]; rfl
  · rw [hq h]; rfl

theorem State.skipIf_beq (s : State) (a b : Byte) :
    (a = b → (s.skipIf (a == b)).pc = s.pc + 4) ∧ (a ≠ b → (s.skipIf (a == b)).pc = s.pc + 2) ∧
      Unchanged [.pc] s (s.skipIf (a == b)) :=
  s.skipIf_spec beq_iff_eq.mpr beq_eq_false_iff_ne.mpr

theorem State.skipIf_bne (s : State) (a b : Byte) :
    (a ≠ b → (s.skipIf (a != b)).pc = s.pc + 4) ∧ (a = b → (s.skipIf (a != b)).pc = s.pc + 2) ∧
      Unchanged [.pc] s (s.skipIf (a != b)) :=
  s.skipIf_spec bne_iff_ne.mpr bne_eq_false_iff_eq.mpr

/-- Settles O18: a skip on the comparison of `V[x]` with `kk`. -/
theorem immediateSkips : Obligations.ImmediateSkips :=
  ⟨selectedBy_seImm, selectedBy_sneImm,
    fun x kk s => ⟨_, rfl, s.skipIf_beq (s.readV x) kk⟩,
    fun x kk s => ⟨_, rfl, s.skipIf_bne (s.readV x) kk⟩⟩

/-- Settles O19: a skip on the comparison of `V[x]` with `V[y]`. -/
theorem registerSkips : Obligations.RegisterSkips :=
  ⟨selectedBy_seReg, selectedBy_sneReg,
    fun x y _ s => ⟨_, rfl, s.skipIf_beq (s.readV x) (s.readV y)⟩,
    fun x y _ s => ⟨_, rfl, s.skipIf_bne (s.readV x) (s.readV y)⟩⟩

/-! ### Immediates (R107, R108) -/

/-- A routine that writes one register and goes on writes no other register and no other field. -/
theorem State.writeV_advance_frame (s : State) (x : Reg) (v : Byte) :
    RegsUnchanged [x] s (s.writeV x v).advance ∧ Unchanged [.V, .pc] s (s.writeV x v).advance := by
  refine ⟨fun r hr => ?_, WritesOnly.unchanged rfl⟩
  have hne : x ≠ r := fun he => hr (List.mem_singleton.mpr he.symm)
  exact s.readV_writeV_ne v hne

/-- Settles O20: one register write, and no flag. -/
theorem immediateLoads : Obligations.ImmediateLoads := by
  refine ⟨selectedBy_ldImm, selectedBy_addImm, fun x kk s => ?_, fun x kk s => ?_⟩
  · exact ⟨_, rfl, s.readV_writeV_same x kk, rfl, s.writeV_advance_frame x kk⟩
  · have hsum : (((s.writeV x (s.readV x + kk)).advance).readV x).toNat = ((s.readV x).toNat + kk.toNat) % 256 := by
      rw [State.readV_advance, State.readV_writeV_same, BitVec.toNat_add]
    exact ⟨_, rfl, hsum, rfl, s.writeV_advance_frame x _⟩

end Sys2Proof.Machine
end

