-- ==== Sys2Proof/Proofs/Alu.lean ====
section
/-! PROOFS. The family 41_alu_8xy: each operation is the common sequence of R120 on its result and, where it has one,
its flag; what is left is the value of the two on naturals. -/

namespace Sys2Proof.Machine

/-! ### The common ALU sequence, with and without a flag (R120) -/

theorem State.alu8_unchanged (s : State) (op : Byte → Byte → Byte × Option Byte) (x y : Reg) :
    Unchanged [.V, .pc] s (s.alu8 op x y) := by
  rw [State.alu8_eq]
  exact WritesOnly.unchanged rfl

theorem State.alu8_pc (s : State) (op : Byte → Byte → Byte × Option Byte) (x y : Reg) :
    (s.alu8 op x y).pc = s.pc + 2 := by
  rw [State.alu8_eq]

theorem State.readV_alu8_dest (s : State) (op : Byte → Byte → Byte × Option Byte) (x y : Reg) :
    (s.alu8 op x y).readV x = (op (s.readV x) (s.readV y)).1 := by
  rw [State.readV_alu8, if_pos rfl]

/-- The result stands in `V[x]`, and no other register is written. -/
theorem State.alu8_noFlag_spec (s : State) (res : Byte → Byte → Byte) (x y : Reg) :
    let t := s.alu8 (fun a b => (res a b, none)) x y
    t.readV x = res (s.readV x) (s.readV y) ∧ t.pc = s.pc + 2 ∧ RegsUnchanged [x] s t ∧
      Unchanged [.V, .pc] s t :=
  ⟨s.readV_alu8_dest .., s.alu8_pc .., fun _ hr => s.readV_alu8_noFlag res y (List.ne_of_not_mem_cons hr),
    s.alu8_unchanged _ x y⟩

/-- The result stands in `V[x]`, and in VF the flag unless `x = F`, where the result overwrote it. -/
theorem State.alu8_flag_spec (s : State) (res flag : Byte → Byte → Byte) (x y : Reg) :
    let t := s.alu8 (fun a b => (res a b, some (flag a b))) x y
    t.readV x = res (s.readV x) (s.readV y) ∧ (x ≠ VF → t.readV VF = flag (s.readV x) (s.readV y)) ∧
      t.pc = s.pc + 2 ∧ RegsUnchanged [x, VF] s t ∧ Unchanged [.V, .pc] s t := by
  refine ⟨s.readV_alu8_dest .., fun hx => ?_, s.alu8_pc .., fun r hr => ?_, s.alu8_unchanged _ x y⟩
  · rw [State.readV_alu8, if_neg hx, if_pos rfl, Option.getD_some]
  · exact s.readV_alu8_ne _ y (by simpa using hr)

/-! ### Results and flags as naturals (R125 to R129) -/

theorem flagByte_decide (p : Prop) [Decidable p] : flagByte (decide p) = if p then 1 else 0 := by
  simp only [flagByte, decide_eq_true_eq]

theorem byte_sub_toNat (a b : Byte) : (a - b).toNat = (a.toNat + 256 - b.toNat) % 256 := by
  have hb := b.isLt
  rw [BitVec.toNat_sub]
  congr 1
  omega

theorem byte_ushiftRight_toNat (a : Byte) (n : Nat) : (a >>> n).toNat = a.toNat / 2 ^ n := by
  rw [BitVec.toNat_ushiftRight, Nat.shiftRight_eq_div_pow]

theorem byte_shiftLeft_one_toNat (a : Byte) : (a <<< 1).toNat = a.toNat * 2 % 256 := by
  rw [BitVec.toNat_shiftLeft, Nat.shiftLeft_eq]

theorem shiftRightFlag_toNat (a : Byte) : (shiftRightFlag a).toNat = a.toNat % 2 := by
  rw [shiftRightFlag, BitVec.toNat_and]
  exact Nat.and_one_is_mod _

/-- The bit SHL shifts out is the low bit of `a >>> 7`, which has no other. -/
theorem shiftLeftFlag_toNat (a : Byte) : (shiftLeftFlag a).toNat = a.toNat / 128 := by
  have ha := a.isLt
  calc (shiftLeftFlag a).toNat
      = (a >>> 7).toNat % 2 := shiftRightFlag_toNat (a >>> 7)
    _ = a.toNat / 2 ^ 7 % 2 := by rw [byte_ushiftRight_toNat]
    _ = a.toNat / 128 := by omega

/-! ### The operations -/

/-- Settles O21: four operations with no flag. -/
theorem logicalOps : Obligations.LogicalOps :=
  ⟨selectedBy_ldReg, selectedBy_or, selectedBy_and, selectedBy_xor,
    fun x y s => ⟨_, rfl, s.alu8_noFlag_spec (fun _ b => b) x y⟩,
    fun x y s => ⟨_, rfl, s.alu8_noFlag_spec (· ||| ·) x y⟩,
    fun x y s => ⟨_, rfl, s.alu8_noFlag_spec (· &&& ·) x y⟩,
    fun x y s => ⟨_, rfl, s.alu8_noFlag_spec (· ^^^ ·) x y⟩⟩

/-- Settles O22: the sum of bytes wraps, and the carry is the comparison of the natural sum. -/
theorem addWithCarry : Obligations.AddWithCarry := by
  refine ⟨selectedBy_addReg, fun x y s => ?_⟩
  obtain ⟨hres, hflag, hframe⟩ := s.alu8_flag_spec (· + ·) carryFlag x y
  exact ⟨_, rfl, hres ▸ BitVec.toNat_add .., fun hx => (hflag hx).trans (flagByte_decide _), hframe⟩

/-- Settles O23: SUBN is SUB with the operands exchanged, in the result and in the flag. -/
theorem subtractStrict : Obligations.SubtractStrict := by
  refine ⟨selectedBy_sub, selectedBy_subn, fun x y s => ?_, fun x y s => ?_⟩
  · obtain ⟨hres, hflag, hframe⟩ := s.alu8_flag_spec (· - ·) notBorrowFlag x y
    exact ⟨_, rfl, hres ▸ byte_sub_toNat .., fun hx => (hflag hx).trans (flagByte_decide _), hframe⟩
  · obtain ⟨hres, hflag, hframe⟩ := s.alu8_flag_spec (fun a b => b - a) (fun a b => notBorrowFlag b a) x y
    exact ⟨_, rfl, hres ▸ byte_sub_toNat .., fun hx => (hflag hx).trans (flagByte_decide _), hframe⟩

/-- Settles O24: result and flag are functions of the first operand alone. -/
theorem shiftByOne : Obligations.ShiftByOne := by
  refine ⟨selectedBy_shr, selectedBy_shl, fun x y s => ?_, fun x y s => ?_⟩
  · obtain ⟨hres, hflag, hframe⟩ := s.alu8_flag_spec (fun a _ => a >>> 1) (fun a _ => shiftRightFlag a) x y
    exact ⟨_, rfl, hres ▸ byte_ushiftRight_toNat _ 1, fun hx => hflag hx ▸ shiftRightFlag_toNat _, hframe⟩
  · obtain ⟨hres, hflag, hframe⟩ := s.alu8_flag_spec (fun a _ => a <<< 1) (fun a _ => shiftLeftFlag a) x y
    exact ⟨_, rfl, hres ▸ byte_shiftLeft_one_toNat _, fun hx => hflag hx ▸ shiftLeftFlag_toNat _, hframe⟩

end Sys2Proof.Machine
end

