-- ==== Sys2Proof/Proofs/IndexDraw.lean ====
section
/-! PROOFS. The family 42_skip_index_jump_random_draw: the index loads and the sprite draw. A draw toggles one list of
distinct cells, those the sprite covers, so what it does to a cell and to VF is read off membership in that list. -/

namespace Sys2Proof.Machine

/-! ### The cells of a draw (42_skip_index_jump_random_draw.md R144) -/

/-- The cells that `Dxyn` toggles in `s`, in the order it toggles them (R144). -/
def State.drawnCells (s : State) (x y : Reg) (n : BitVec 4) : List Nat :=
  spriteCells (s.spriteOrigin x y).1 (s.spriteOrigin x y).2 0 (s.mem.readBlock s.I.toNat n.toNat)

theorem State.drawnSprite_eq (s : State) (x y : Reg) (n : BitVec 4) :
    s.drawnSprite x y n = drawPixels (s.drawnCells x y n) (s.fb, false) :=
  drawRows_eq ..

/-- A sprite has at most 15 rows, so none of its rows wraps onto another. -/
theorem State.nodup_drawnCells (s : State) (x y : Reg) (n : BitVec 4) : (s.drawnCells x y n).Nodup := by
  have hn := n.isLt
  exact nodup_spriteCells _ _ _ _ (by rw [Memory.length_readBlock]; omega)

theorem State.lt_of_mem_drawnCells {s : State} {x y : Reg} {n : BitVec 4} {j : Nat} (h : j ∈ s.drawnCells x y n) :
    j < 2048 := lt_of_mem_spriteCells h

theorem State.mem_drawnCells (s : State) (x y : Reg) (n : BitVec 4) {row col : Nat} (hcol : col < 64) :
    row * 64 + col ∈ s.drawnCells x y n ↔ SpriteCovers s x y n row col := by
  rw [State.drawnCells, mem_spriteCells, Memory.length_readBlock, SpriteCovers]
  refine exists_congr fun r => and_congr_right fun hr => exists_congr fun c => and_congr_right fun _ => ?_
  rw [Memory.getD_readBlock _ _ _ _ hr]
  refine and_congr_right fun _ => ?_
  simp only [State.spriteOrigin, pixelIndex]
  omega

/-- Some toggled cell has the property iff some covered place has it. -/
theorem State.any_drawnCells (s : State) (x y : Reg) (n : BitVec 4) (p : Nat → Bool) :
    (s.drawnCells x y n).any p = true ↔
      ∃ row, row < 32 ∧ ∃ col, col < 64 ∧ SpriteCovers s x y n row col ∧ p (row * 64 + col) = true := by
  rw [List.any_eq_true]
  constructor
  · rintro ⟨j, hj, hp⟩
    have hlt := State.lt_of_mem_drawnCells hj
    have hcol : j % 64 < 64 := Nat.mod_lt _ (by decide)
    have hsplit : j = j / 64 * 64 + j % 64 := by omega
    rw [hsplit] at hj hp
    exact ⟨j / 64, by omega, j % 64, hcol, (s.mem_drawnCells x y n hcol).mp hj, hp⟩
  · rintro ⟨row, _, col, hcol, hc, hp⟩
    exact ⟨row * 64 + col, (s.mem_drawnCells x y n hcol).mpr hc, hp⟩

/-! ### The answers of a draw -/

/-- `s` after a `Dxyn` whose sprite lies in memory (R144). -/
def State.drawn (s : State) (x y : Reg) (n : BitVec 4) : State :=
  (({ s with fb := (s.drawnSprite x y n).1, redraw := true }).writeV VF
    (collisionFlag (s.drawnSprite x y n).2)).advance

theorem exec_drw_of_inside {x y : Reg} {n : BitVec 4} {s : State} (h : n = 0 ∨ s.I.toNat + n.toNat ≤ 4096) :
    exec (.drw x y n) s = .next (s.drawn x y n) := by
  have hc : checkBlock checkRead s.I.toNat n.toNat = none :=
    (checkBlock_read_eq_none _ _).mpr (h.imp_left (congrArg BitVec.toNat))
  simp only [exec, execDrw, hc, State.guarded, State.drawn]

theorem exec_drw_of_outside {x y : Reg} {n : BitVec 4} {s : State} (hn : n ≠ 0) (h : 4096 < s.I.toNat + n.toNat) :
    exec (.drw x y n) s =
      .next (s.raise (.memoryOutOfRange s.pc (encode (.drw x y n)) (max s.I.toNat 4096))) := by
  have hpos : 0 < n.toNat := Nat.pos_of_ne_zero fun h0 => hn (BitVec.eq_of_toNat_eq h0)
  simp only [exec, execDrw, checkBlock_read_outside hpos h, State.guarded, AccessError.toFatal]

theorem State.cell_drawn (s : State) (x y : Reg) (n : BitVec 4) (j : Nat) :
    Framebuffer.cell (s.drawn x y n).fb j = (Framebuffer.cell s.fb j ^^ decide (j ∈ s.drawnCells x y n)) := by
  have hfb : (s.drawn x y n).fb = (s.drawnSprite x y n).1 := rfl
  rw [hfb, State.drawnSprite_eq]
  exact cell_drawPixels _ _ (s.nodup_drawnCells x y n) (fun _ => State.lt_of_mem_drawnCells) j

theorem State.cell_drawn_of_covered {s : State} {x y : Reg} {n : BitVec 4} {row col : Nat} (hcol : col < 64)
    (h : SpriteCovers s x y n row col) :
    Framebuffer.cell (s.drawn x y n).fb (row * 64 + col) = !Framebuffer.cell s.fb (row * 64 + col) := by
  rw [State.cell_drawn, decide_eq_true ((s.mem_drawnCells x y n hcol).mpr h), Bool.xor_true]

theorem State.cell_drawn_of_not_covered {s : State} {x y : Reg} {n : BitVec 4} {row col : Nat} (hcol : col < 64)
    (h : ¬ SpriteCovers s x y n row col) :
    Framebuffer.cell (s.drawn x y n).fb (row * 64 + col) = Framebuffer.cell s.fb (row * 64 + col) := by
  rw [State.cell_drawn, decide_eq_false (mt (s.mem_drawnCells x y n hcol).mp h), Bool.xor_false]

/-- The flag of a draw: whether a lit cell is among those it toggles. -/
theorem State.readV_VF_drawn (s : State) (x y : Reg) (n : BitVec 4) :
    (s.drawn x y n).readV VF = flagByte ((s.drawnCells x y n).any (Framebuffer.cell s.fb)) := by
  rw [State.drawn, State.readV_advance, State.readV_writeV_same, State.drawnSprite_eq,
    hit_drawPixels _ _ (s.nodup_drawnCells x y n) (fun _ => State.lt_of_mem_drawnCells), Bool.false_or,
    collisionFlag]

theorem State.readV_drawn_ne (s : State) (x y : Reg) (n : BitVec 4) {r : Reg} (hr : r ≠ VF) :
    (s.drawn x y n).readV r = s.readV r :=
  State.readV_writeV_ne _ _ hr.symm

/-- A draw leaves memory, `I` and the registers of its origin, so that the same draw after it toggles the same cells. -/
theorem State.drawnCells_drawn (s : State) {x y : Reg} (n : BitVec 4) (hx : x ≠ VF) (hy : y ≠ VF) :
    (s.drawn x y n).drawnCells x y n = s.drawnCells x y n := by
  have ho : (s.drawn x y n).spriteOrigin x y = s.spriteOrigin x y := by
    simp only [State.spriteOrigin, s.readV_drawn_ne x y n hx, s.readV_drawn_ne x y n hy]
  have hb : (s.drawn x y n).mem.readBlock (s.drawn x y n).I.toNat n.toNat = s.mem.readBlock s.I.toNat n.toNat := rfl
  rw [State.drawnCells, ho, hb, State.drawnCells]

theorem flagByte_eq_one_iff (b : Bool) : flagByte b = 1 ↔ b = true := by
  cases b <;> decide

/-! ### The obligations -/

/-- Settles O27: a cell is flipped iff it is one of the toggled cells, and those are the covered ones. -/
theorem drawFlipsCells : Obligations.DrawFlipsCells := by
  refine ⟨selectedBy_drw, fun _ _ _ _ => exec_drw_of_outside, fun x y n s h => ?_⟩
  have hhit := s.any_drawnCells x y n (Framebuffer.cell s.fb)
  refine ⟨_, exec_drw_of_inside h, fun row _ col hcol => ?_, fun hc => ?_, fun hc => ?_, rfl, rfl, fun r hr => ?_,
    WritesOnly.unchanged rfl⟩
  · exact ⟨State.cell_drawn_of_covered hcol, State.cell_drawn_of_not_covered hcol⟩
  · rw [State.readV_VF_drawn, hhit.mpr hc]; rfl
  · rw [State.readV_VF_drawn, Bool.eq_false_iff.mpr (mt hhit.mp hc)]; rfl
  · exact s.readV_drawn_ne x y n (List.ne_of_not_mem_cons hr)

/-- Settles O28: both draws toggle the same cells, and the first leaves a covered cell lit iff it was unlit. -/
theorem drawTwiceRestores : Obligations.DrawTwiceRestores := by
  intro x y n s hx hy h
  have hcells := s.drawnCells_drawn n hx hy
  refine ⟨s.drawn x y n, (s.drawn x y n).drawn x y n, exec_drw_of_inside h, exec_drw_of_inside h, ?_, ?_⟩
  · refine Framebuffer.ext_cell fun j _ => ?_
    rw [State.cell_drawn, hcells, State.cell_drawn, Bool.xor_assoc, Bool.xor_self, Bool.xor_false]
  · rw [State.readV_VF_drawn, flagByte_eq_one_iff, hcells, State.any_drawnCells]
    refine exists_congr fun row => and_congr_right fun _ => exists_congr fun col => and_congr_right fun hcol =>
      and_congr_right fun hc => ?_
    rw [State.cell_drawn_of_covered hcol hc, Bool.not_eq_true']

/-- The product does not wrap: it is at most 255 * 5 (R168). -/
theorem glyphAddress_toNat (v : Byte) : (glyphAddress v).toNat = v.toNat * 5 := by
  have hv := v.isLt
  rw [glyphAddress, BitVec.toNat_ofNat, Nat.mod_eq_of_lt (by omega)]

/-- Settles O25: neither value wraps in the 16 bits of `I`. -/
theorem indexLoads : Obligations.IndexLoads :=
  ⟨selectedBy_ldI, selectedBy_ldFVx,
    fun nnn _ => ⟨_, rfl, zext16_toNat nnn, rfl, WritesOnly.unchanged rfl⟩,
    fun x s => ⟨_, rfl, glyphAddress_toNat (s.readV x), rfl, WritesOnly.unchanged rfl⟩⟩

end Sys2Proof.Machine
end

