-- ==== Sys2Proof/Proofs/KeysTimersMemory.lean ====
section
/-! PROOFS. The family 43_keys_and_f_group: key skips and the key wait, timers, index arithmetic, BCD and the register
block. What a transfer leaves in memory and registers is read off the laws of block writes and block loads; where it
traps is the block check of R53. -/

namespace Sys2Proof.Machine

/-! ### Key skips (43_keys_and_f_group.md R160 to R162) -/

theorem exec_skp_of_lt {x : Reg} {s : State} (h : (s.readV x).toNat < 16) :
    exec (.skp x) s = .next (s.skipIf s.keys[(s.readV x).toNat]) := by
  simp only [exec, execSkp, s.keyAt_of_lt _ h]

theorem exec_sknp_of_lt {x : Reg} {s : State} (h : (s.readV x).toNat < 16) :
    exec (.sknp x) s = .next (s.skipIf (!s.keys[(s.readV x).toNat])) := by
  simp only [exec, execSknp, s.keyAt_of_lt _ h]

theorem exec_skp_of_outside {x : Reg} {s : State} (h : 16 ≤ (s.readV x).toNat) :
    exec (.skp x) s = .next (s.raise (.keyIndexOutOfRange s.pc (encode (.skp x)) (s.readV x))) := by
  simp only [exec, execSkp, (s.keyAt_eq_none _).mpr h]

theorem exec_sknp_of_outside {x : Reg} {s : State} (h : 16 ≤ (s.readV x).toNat) :
    exec (.sknp x) s = .next (s.raise (.keyIndexOutOfRange s.pc (encode (.sknp x)) (s.readV x))) := by
  simp only [exec, execSknp, (s.keyAt_eq_none _).mpr h]

/-- Skipping on a negated condition exchanges the two distances. -/
theorem State.skipIf_not_pc (s : State) (c : Bool) :
    (s.skipIf (!c)).pc = s.pc + (if c = true then 2 else 4) := by
  cases c <;> rfl

/-- Settles O29: a skip on the key that `V[x]` names, or the trap where it names none. -/
theorem keySkips : Obligations.KeySkips := by
  refine ⟨selectedBy_skp, selectedBy_sknp, fun x s h => ?_, fun x s h => ?_, fun x s h => ?_⟩
  · exact ⟨_, exec_skp_of_lt h, rfl, WritesOnly.unchanged rfl⟩
  · exact ⟨_, exec_sknp_of_lt h, s.skipIf_not_pc _, WritesOnly.unchanged rfl⟩
  · exact ⟨exec_skp_of_outside h, exec_sknp_of_outside h⟩

/-! ### The key wait (R164) -/

theorem exec_ldVxK_of_noKey (x : Reg) {s : State} (h : s.leastKey = none) : exec (.ldVxK x) s = .next s := by
  simp only [exec, execLdVxK, h]

theorem exec_ldVxK_of_key (x : Reg) {s : State} {k : Nat} (h : s.leastKey = some k) :
    exec (.ldVxK x) s = .next (s.writeV x (BitVec.ofNat 8 k)).advance := by
  simp only [exec, execLdVxK, h]

/-- Settles O31: the answer goes by the least pressed key, and one byte holds its index. -/
theorem keyWait : Obligations.KeyWait := by
  refine ⟨selectedBy_ldVxK, fun x s h => exec_ldVxK_of_noKey x (s.leastKey_eq_none.mpr h), fun x s k hk hp hj => ?_⟩
  have hleast : s.leastKey = some k := (s.leastKey_eq_some k).mpr ⟨hk, hp, hj⟩
  have hval : ((s.writeV x (BitVec.ofNat 8 k)).advance.readV x).toNat = k := by
    rw [State.readV_advance, State.readV_writeV_same, BitVec.toNat_ofNat, Nat.mod_eq_of_lt (by omega)]
  exact ⟨_, exec_ldVxK_of_key x hleast, hval, rfl, s.writeV_advance_frame x _⟩

/-! ### Steps and ticks during the key wait (R164, R221, R235) -/

/-- A running program whose next word is an LD_VX_K, with no key pressed. -/
def State.WaitsForKey (s : State) : Prop :=
  s.halted = none ∧ s.leastKey = none ∧ ∃ w x, s.fetch = some w ∧ decode w = .ok (.ldVxK x)

theorem step_of_waitsForKey {s : State} (h : s.WaitsForKey) : step s = .next s := by
  obtain ⟨hh, hk, w, x, hf, hd⟩ := h
  rw [step_of_decoded hh hf hd, exec_ldVxK_of_noKey x hk]

/-- A tick changes neither the keys nor what the next fetch reads. -/
theorem State.WaitsForKey.tick {s : State} (h : s.WaitsForKey) : s.tick.WaitsForKey := by
  rw [State.tick_of_running h.1]
  exact h

/-- During the key wait a schedule of steps and ticks does what its ticks alone do. -/
theorem runSchedule_of_waitsForKey (p : Params) {ts : List Transaction} (hts : ∀ a ∈ ts, a.waits = true) {s : State}
    (hs : s.WaitsForKey) : runSchedule p ts s = .next (State.ticks (ts.countP (fun a => a = .tick)) s) := by
  induction ts generalizing s with
  | nil => rfl
  | cons a ts ih =>
    obtain ⟨ha, hrest⟩ := List.forall_mem_cons.mp hts
    cases a with
    | step =>
      rw [List.countP_cons_of_neg (by decide), ← ih hrest hs]
      simp only [runSchedule, transact, step_of_waitsForKey hs]
    | tick =>
      rw [List.countP_cons_of_pos (by decide), State.ticks, ← ih hrest hs.tick]
      rfl
    | reset image => cases ha
    | setKeys k => cases ha
    | redrawClear => cases ha

/-- What `n` ticks do to a running machine (R210, R211). -/
theorem State.ticks_spec (n : Nat) {s : State} (hh : s.halted = none) :
    Unchanged [.DT, .ST] s (State.ticks n s) ∧ (State.ticks n s).DT.toNat = s.DT.toNat - n ∧
      (State.ticks n s).ST.toNat = s.ST.toNat - n := by
  induction n generalizing s with
  | zero => exact ⟨Unchanged.refl _ s, rfl, rfl⟩
  | succ n ih =>
    have htick := State.tick_of_running hh
    have hh' : s.tick.halted = none := by rw [htick]; exact hh
    have hframe : Unchanged [.DT, .ST] s s.tick := by rw [htick]; exact WritesOnly.unchanged rfl
    obtain ⟨hrest, hDT, hST⟩ := ih hh'
    refine ⟨hframe.trans hrest, ?_, ?_⟩
    · rw [State.ticks, hDT, htick, countDown_toNat, Nat.sub_sub, Nat.add_comm]
    · rw [State.ticks, hST, htick, countDown_toNat, Nat.sub_sub, Nat.add_comm]

/-- Settles O32: the schedule does what its ticks alone do. -/
theorem keyWaitTicks : Obligations.KeyWaitTicks := by
  intro p s w x ts hh hf hd hk hts
  have hwait : s.WaitsForKey := ⟨hh, s.leastKey_eq_none.mpr hk, w, x, hf, hd⟩
  exact ⟨_, runSchedule_of_waitsForKey p hts hwait, State.ticks_spec _ hh⟩

/-! ### Timers and index arithmetic (R163, R165 to R167) -/

/-- Settles O30: one register write, or one timer write. -/
theorem timerMoves : Obligations.TimerMoves :=
  ⟨selectedBy_ldVxDt, selectedBy_ldDtVx, selectedBy_ldStVx,
    fun x s => ⟨_, rfl, s.readV_writeV_same x s.DT, rfl, s.writeV_advance_frame x s.DT⟩,
    fun _ _ => ⟨_, rfl, rfl, rfl, WritesOnly.unchanged rfl⟩,
    fun _ _ => ⟨_, rfl, rfl, rfl, WritesOnly.unchanged rfl⟩⟩

theorem index_add_byte_toNat (i : Word) (v : Byte) : (i + v.setWidth 16).toNat = (i.toNat + v.toNat) % 65536 := by
  rw [BitVec.toNat_add, BitVec.toNat_setWidth_of_le (by decide)]

/-- Settles O33: the flag is of the old operands, the sum of the register as it reads after the flag. -/
theorem addToIndex : Obligations.AddToIndex := by
  refine ⟨selectedBy_addIVx, fun x s => ?_⟩
  have hflag := (s.readV_writeV_same VF (indexRangeFlag s.I (s.readV x))).trans (flagByte_decide _)
  have hregs := (s.writeV_advance_frame VF (indexRangeFlag s.I (s.readV x))).1
  exact ⟨_, rfl, hflag, index_add_byte_toNat .., rfl, hregs, WritesOnly.unchanged rfl⟩

/-! ### Stores and loads that trap (R53, R204, R205) -/

section
variable {s : State} (w : Word) (t : State) {n : Nat} (hn : 0 < n)
include hn

theorem State.guarded_read_outside (h : 4096 < s.I.toNat + n) :
    s.guarded (checkBlock checkRead s.I.toNat n) w t =
      .next (s.raise (.memoryOutOfRange s.pc w (max s.I.toNat 4096))) := by
  rw [checkBlock_read_outside hn h]
  rfl

theorem State.guarded_write_outside (h : 4096 < s.I.toNat + n) (hle : n ≤ 16) :
    s.guarded (checkBlock (checkWrite s.glyphPolicy) s.I.toNat n) w t =
      .next (s.raise (.memoryOutOfRange s.pc w (max s.I.toNat 4096))) := by
  rw [checkBlock_write_outside hn h hle]
  rfl

theorem State.guarded_write_glyph (h : s.I.toNat ≤ 0x04F) (hp : s.glyphPolicy = .fatal) :
    s.guarded (checkBlock (checkWrite s.glyphPolicy) s.I.toNat n) w t =
      .next (s.raise (.glyphWrite s.pc w s.I.toNat)) := by
  rw [hp, checkBlock_write_glyph hn h]
  rfl

end

/-! ### BCD (R169) -/

/-- The bytes that LD_B_VX stores are the three decimal digits of the value. -/
theorem bcdDigits_toNat (v : Byte) :
    ((bcdDigits v).getD 0 0).toNat = v.toNat / 100 ∧ ((bcdDigits v).getD 1 0).toNat = v.toNat / 10 % 10 ∧
      ((bcdDigits v).getD 2 0).toNat = v.toNat % 10 := by
  have hv := v.isLt
  simp only [bcdDigits, List.getD_cons_zero, List.getD_cons_succ, BitVec.toNat_ofNat]
  omega

/-- Settles O34: the block written is the digits of `V[x]`, and a trap is that of a store of three bytes. -/
theorem bcdStore : Obligations.BcdStore := by
  refine ⟨selectedBy_ldBVx, fun x s h hg => ?_, fun x s h => ?_, fun x s h hp => ?_⟩
  · have hv := (s.readV x).isLt
    obtain ⟨h0, h1, h2⟩ := bcdDigits_toNat (s.readV x)
    have hread {k : Nat} (hk : k < 3) := s.mem.read_writeBlock_at s.I.toNat (vs := bcdDigits (s.readV x)) hk
    rw [← hread (by decide)] at h0 h1 h2
    rw [Nat.add_zero] at h0
    refine ⟨_, exec_ldBVx_of_checked x h hg, ?_, ?_, ?_, ?_, rfl, bytesUnchanged_of_writeBlock rfl rfl,
      WritesOnly.unchanged rfl⟩
    all_goals
      simp only [State.advance_mem, h0, h1, h2]
      omega
  · exact State.guarded_write_outside _ _ (by decide) h (by decide)
  · exact State.guarded_write_glyph _ _ (by decide) h hp

/-! ### The register block (R170, R171) -/

/-- After a block that ends in memory, `I` does not wrap. -/
theorem State.indexAfterBlock_toNat {s : State} {x : Reg} (h : s.I.toNat + x.toNat + 1 ≤ 4096) :
    (s.indexAfterBlock x).toNat = s.I.toNat + x.toNat + 1 := by
  have hx := x.isLt
  rw [State.indexAfterBlock, blockLength, BitVec.toNat_add, BitVec.toNat_ofNat]
  omega

/-- A written register block reads back, each register at its place. -/
theorem State.read_writeBlock_blockBytes (s : State) {x r : Reg} (hr : r.toNat ≤ x.toNat) :
    (s.mem.writeBlock s.I.toNat (s.blockBytes x)).read (s.I.toNat + r.toNat) = s.readV r := by
  rw [Memory.read_writeBlock_at _ _ (by rw [State.length_blockBytes]; omega), s.getD_blockBytes_reg hr]

/-- Settles O35: the block written is V0 to Vx, and a trap is that of a store of `x + 1` bytes. -/
theorem storeBlock : Obligations.StoreBlock := by
  refine ⟨selectedBy_ldMemVx, fun x s h hg => ?_, fun x s h => ?_, fun x s h hp => ?_⟩
  · exact ⟨_, exec_ldMemVx_of_checked h hg, fun _ => s.read_writeBlock_blockBytes,
      State.indexAfterBlock_toNat h, rfl, bytesUnchanged_of_writeBlock rfl (s.length_blockBytes x),
      WritesOnly.unchanged rfl⟩
  · exact State.guarded_write_outside _ _ (Nat.succ_pos _) h x.isLt
  · exact State.guarded_write_glyph _ _ (Nat.succ_pos _) h hp

/-- `s` after an LD_VX_MEM whose block lies in memory (R171). -/
def State.loaded (s : State) (x : Reg) : State :=
  ({ s with V := s.loadBlock x, I := s.indexAfterBlock x }).advance

theorem exec_ldVxMem_of_inside {x : Reg} {s : State} (h : s.I.toNat + x.toNat + 1 ≤ 4096) :
    exec (.ldVxMem x) s = .next (s.loaded x) :=
  (State.guarded_eq ..).mpr (.inr ⟨(checkBlock_read_eq_none ..).mpr (.inr h), rfl⟩)

theorem State.readV_loaded (s : State) {x r : Reg} (hr : r.toNat ≤ x.toNat) :
    (s.loaded x).readV r = s.mem.read (s.I.toNat + r.toNat) :=
  (s.getElem_loadBlock x r.toNat r.isLt).trans (if_pos hr)

/-- Settles O36: the registers loaded are those up to `x`, and a trap is that of a read of `x + 1` bytes. -/
theorem loadBlock : Obligations.LoadBlock := by
  refine ⟨selectedBy_ldVxMem, fun x s h => ?_, fun x s h => ?_⟩
  · exact ⟨_, exec_ldVxMem_of_inside h, fun _ => s.readV_loaded,
      fun _ hr => State.readV_loadBlock_above rfl (Nat.not_le.mpr hr), State.indexAfterBlock_toNat h, rfl,
      WritesOnly.unchanged rfl⟩
  · exact State.guarded_read_outside _ _ (Nat.succ_pos _) h

/-- Settles O37: a loaded register is the byte at its place, which the store made the old register. -/
theorem storeThenLoadBlock : Obligations.StoreThenLoadBlock := by
  intro x s regs h hg
  refine ⟨_, _, exec_ldMemVx_of_checked h hg, exec_ldVxMem_of_inside h, fun r hr => ?_⟩
  exact (State.readV_loaded _ hr).trans (s.read_writeBlock_blockBytes hr)

end Sys2Proof.Machine
end

