-- ==== Sys2Proof/Proofs/Exceptions.lean ====
section
/-! PROOFS. The family 60_exceptions: fatal conditions and their causes, ticks, and the transactions that write one
field. A step either raises the record that the table of R208 gives for the state before it, or leaves `halted`; what a step
raises and that it changes nothing else are both read off this. -/

namespace Sys2Proof.Machine

/-! ### The fatal record of an instruction (60_exceptions.md R201 to R208) -/

/-- From `s` a step ends in `t` with the fatal record `e`: the record on `s` itself, or `halted` as it was (R200). -/
def State.EndsWith (s : State) (e : Option Fatal) (t : State) : Prop :=
  match e with
  | some f => t = s.raise f
  | none => t.halted = s.halted

/-- From a running state the record a step ends with is `halted` after it. -/
theorem State.EndsWith.halted_eq {s t : State} {e : Option Fatal} (h : s.EndsWith e t) (hs : s.halted = none) :
    t.halted = e := by
  cases e with
  | some f => exact congrArg State.halted h
  | none => exact h.trans hs

/-- A step that changes `halted` ends in the state before it with a record (R200). -/
theorem State.EndsWith.eq_raise {s t : State} {e : Option Fatal} (h : s.EndsWith e t) (hne : t.halted ≠ s.halted) :
    ∃ f, t = s.raise f := by
  cases e with
  | some f => exact ⟨f, h⟩
  | none => exact absurd h hne

/-- The closed form of a read's record is the first failure of its block check (R204). -/
theorem readFatal_eq_checkBlock (s : State) (w : Word) (n : Nat) :
    readFatal s w n = (checkBlock checkRead s.I.toNat n).map (·.toFatal s.pc w) := by
  by_cases h : 0 < n ∧ 4096 < s.I.toNat + n
  · rw [checkBlock_read_outside h.1 h.2, readFatal, lowestOutside, if_pos h]
    rfl
  · rw [(checkBlock_read_eq_none ..).mpr (by omega), readFatal, lowestOutside, if_neg h]
    rfl

/-- Where the glyph table is not met, a store of at most 16 bytes fails where a read of them fails. -/
theorem checkBlock_write_eq_read {p : GlyphPolicy} {a n : Nat} (hn : n ≤ 16)
    (hg : ¬ (0 < n ∧ a ≤ 0x04F ∧ p = .fatal)) :
    checkBlock (checkWrite p) a n = checkBlock checkRead a n := by
  by_cases h : 0 < n ∧ 4096 < a + n
  · rw [checkBlock_write_outside h.1 h.2 hn, checkBlock_read_outside h.1 h.2]
  · have hin : n = 0 ∨ a + n ≤ 4096 := by omega
    rw [(checkBlock_read_eq_none ..).mpr hin, checkBlock_write_eq_none]
    rcases Nat.eq_zero_or_pos n with h0 | hpos
    · exact .inl h0
    · exact .inr ⟨hin.resolve_left hpos.ne', fun hp => hg ⟨hpos, hp⟩⟩

/-- The closed form of a store's record is the first failure of its block check (R204, R205, R209). -/
theorem storeFatal_eq_checkBlock (s : State) (w : Word) {n : Nat} (hn : n ≤ 16) :
    storeFatal s w n = (checkBlock (checkWrite s.glyphPolicy) s.I.toNat n).map (·.toFatal s.pc w) := by
  by_cases h : 0 < n ∧ s.I.toNat ≤ 0x04F ∧ s.glyphPolicy = .fatal
  · obtain ⟨hpos, ha, hp⟩ := h
    rw [storeFatal, if_pos ⟨hpos, ha, hp⟩, hp, checkBlock_write_glyph hpos ha]
    rfl
  · rw [storeFatal, if_neg h, checkBlock_write_eq_read hn h, readFatal_eq_checkBlock]

/-- A guarded end raises the record of its failed check, if there is one (R53). -/
theorem State.guarded_endsWith {s t u : State} {e : Option AccessError} {w : Word} (h : s.guarded e w t = .next u)
    (ht : t.halted = s.halted) : s.EndsWith (e.map (·.toFatal s.pc w)) u := by
  rcases (State.guarded_eq ..).mp h with ⟨x, rfl, rfl⟩ | ⟨rfl, rfl⟩
  · rfl
  · exact ht

/-- A key skip raises iff `V[x]` names no key (R206). -/
theorem keyFatal_endsWith {s t : State} {w : Word} {v : Byte} {c : v.toNat < 16 → Bool}
    (hout : 16 ≤ v.toNat → t = s.raise (.keyIndexOutOfRange s.pc w v))
    (hin : ∀ h : v.toNat < 16, t = s.skipIf (c h)) : s.EndsWith (keyFatal s w v) t := by
  by_cases h : 16 ≤ v.toNat
  · rw [keyFatal, if_pos h]
    exact hout h
  · rw [keyFatal, if_neg h, hin (Nat.not_le.mp h)]
    rfl

/-- A routine raises exactly the record that the table gives for its instruction (R208). -/
theorem exec_endsWith {i : Instr} {s t : State} (h : exec i s = .next t) :
    s.EndsWith (instrFatal s (encode i) i) t := by
  cases i
  case ret ign =>
    by_cases hsp : s.sp.val = 0
    · rw [exec_ret_of_empty ign hsp] at h
      rw [instrFatal, if_pos hsp]
      exact (Host.Outcome.next.inj h).symm
    · rw [exec_ret_of_pos ign (Nat.pos_of_ne_zero hsp)] at h
      obtain rfl := Host.Outcome.next.inj h
      rw [instrFatal, if_neg hsp]
      rfl
  case call nnn =>
    by_cases hsp : s.sp.val = 16
    · rw [exec_call_of_full nnn hsp] at h
      rw [instrFatal, if_pos hsp]
      exact (Host.Outcome.next.inj h).symm
    · rw [exec_call_of_lt nnn (by omega)] at h
      obtain rfl := Host.Outcome.next.inj h
      rw [instrFatal, if_neg hsp]
      rfl
  case skp x =>
    exact keyFatal_endsWith (fun hk => Host.Outcome.next.inj (h.symm.trans (exec_skp_of_outside hk)))
      fun hk => Host.Outcome.next.inj (h.symm.trans (exec_skp_of_lt hk))
  case sknp x =>
    exact keyFatal_endsWith (fun hk => Host.Outcome.next.inj (h.symm.trans (exec_sknp_of_outside hk)))
      fun hk => Host.Outcome.next.inj (h.symm.trans (exec_sknp_of_lt hk))
  case ldVxK x =>
    rcases execLdVxK_eq_next h with rfl | ⟨v, rfl⟩ <;> rfl
  case drw | ldVxMem =>
    rw [instrFatal, readFatal_eq_checkBlock]
    exact State.guarded_endsWith h rfl
  case ldBVx x =>
    rw [instrFatal, storeFatal_eq_checkBlock _ _ (by decide)]
    exact State.guarded_endsWith h rfl
  case ldMemVx x =>
    rw [instrFatal, storeFatal_eq_checkBlock _ _ x.isLt]
    exact State.guarded_endsWith h rfl
  all_goals
    obtain rfl := Host.Outcome.next.inj h
    rfl

/-! ### The fatal record of a step (R200, R201, R207) -/

theorem State.stepFatal_of_fetch_none {s : State} (hf : s.fetch = none) :
    s.stepFatal = some (.fetchOutOfRange s.pc) := if_pos ((State.fetch_eq_none s).mp hf)

theorem State.stepFatal_of_undefined {s : State} {w : Word} (hf : s.fetch = some w)
    (hd : decode w = .error (.undefinedWord w)) : s.stepFatal = none := by
  obtain ⟨hpc, rfl⟩ := (State.fetch_eq_some ..).mp hf
  simp only [State.stepFatal, State.wordAtPc, if_neg (Nat.not_le.mpr hpc), hd]

theorem State.stepFatal_of_decoded {s : State} {w : Word} {i : Instr} (hf : s.fetch = some w)
    (hd : decode w = .ok i) : s.stepFatal = instrFatal s w i := by
  obtain ⟨hpc, rfl⟩ := (State.fetch_eq_some ..).mp hf
  simp only [State.stepFatal, State.wordAtPc, if_neg (Nat.not_le.mpr hpc), hd]

/-- A step of a running machine raises exactly the record that the table gives for the state before it. -/
theorem step_endsWith {s t : State} (hh : s.halted = none) (h : step s = .next t) : s.EndsWith s.stepFatal t := by
  rcases step_eq_next h with ⟨hne, _⟩ | ⟨_, hf, rfl⟩ | ⟨w, _, hf, hd, rfl⟩ | ⟨w, i, _, hf, hd, h⟩
  · exact absurd hh hne
  · rw [State.stepFatal_of_fetch_none hf]
    rfl
  · rw [State.stepFatal_of_undefined hf hd]
    rfl
  · rw [State.stepFatal_of_decoded hf hd, ← encode_decode hd]
    exact exec_endsWith h

/-- Settles O11: the record a step ends with is `halted` after it. -/
theorem fatalCauses : Obligations.FatalCauses :=
  ⟨fun _ _ hh h => (step_endsWith hh h).halted_eq hh, fun _ _ _ _ => ⟨rfl, rfl, rfl, rfl, rfl, rfl⟩⟩

/-! ### The events of a fatal condition, and the halted machine (R200) -/

/-- A step of a running machine that halts it emits the record (R200). -/
theorem fatal_mem_stepOutputs {s t : State} {f : Fatal} (hh : s.halted = none) (h : step s = .next t)
    (ht : t.halted = some f) : Event.fatal f ∈ stepOutputs s := by
  have hev : Event.fatal f ∈ fatalEvents (step s) := by
    simp only [h, fatalEvents, ht, List.mem_singleton]
  rcases step_eq_next h with ⟨hne, _⟩ | ⟨_, hf, _⟩ | ⟨w, _, _, _, rfl⟩ | ⟨w, i, _, hf, hd, _⟩
  · exact absurd hh hne
  · rwa [stepOutputs_of_fetch_none hh hf, ← step_of_fetch_none hh hf]
  · cases hh.symm.trans ht
  · rw [stepOutputs_of_decoded hh hf hd, ← step_of_decoded hh hf hd]
    exact List.mem_cons_of_mem _ hev

theorem stepOutputs_of_halted {s : State} (h : s.halted ≠ none) : stepOutputs s = [] := by
  obtain ⟨f, hf⟩ := Option.ne_none_iff_exists'.mp h
  simp only [stepOutputs, hf]

theorem tickOutputs_of_halted {s : State} (h : s.halted ≠ none) : tickOutputs s = [] := by
  obtain ⟨f, hf⟩ := Option.ne_none_iff_exists'.mp h
  simp only [tickOutputs, hf]

theorem tickOutputs_of_running {s : State} (h : s.halted = none) :
    tickOutputs s = if s.ST = 1 then [.toneEnd] else [] := by
  simp only [tickOutputs, h]

theorem step_of_halted_ne_none {s : State} (h : s.halted ≠ none) : step s = .next s := by
  obtain ⟨f, hf⟩ := Option.ne_none_iff_exists'.mp h
  exact step_of_halted hf

/-- A halted machine stays halted, with its record, under every transaction but a reset. -/
theorem transact_keeps_halted {p : Params} {s t : State} {a : Transaction} (hs : s.halted ≠ none)
    (ha : ∀ image, a ≠ .reset image) (h : transact p s a = .next t) : t.halted = s.halted := by
  cases a with
  | reset image => exact absurd rfl (ha image)
  | step => rw [← Host.Outcome.next.inj ((step_of_halted_ne_none hs).symm.trans h)]
  | tick =>
    obtain rfl := Host.Outcome.next.inj h
    rw [State.tick_of_halted hs]
  | setKeys k =>
    obtain rfl := Host.Outcome.next.inj h
    rfl
  | redrawClear =>
    obtain rfl := Host.Outcome.next.inj h
    rfl

/-- A step that changes `halted` raises on the state before it and emits the record. -/
theorem step_fatal_precise {s t : State} (h : step s = .next t) (hne : t.halted ≠ s.halted) :
    ∃ f, t = s.raise f ∧ Event.fatal f ∈ stepOutputs s := by
  by_cases hh : s.halted = none
  · obtain ⟨f, hf⟩ := (step_endsWith hh h).eq_raise hne
    exact ⟨f, hf, fatal_mem_stepOutputs hh h (congrArg State.halted hf)⟩
  · obtain rfl := Host.Outcome.next.inj ((step_of_halted_ne_none hh).symm.trans h)
    exact absurd rfl hne

/-- Settles O10, one lemma for each clause. -/
theorem fatalIsPrecise : Obligations.FatalIsPrecise := by
  refine ⟨fun s t => step_fatal_precise, fun s hs => ?_, fun p s t a hs h ht => ?_, fun _ _ _ => rfl⟩
  · exact ⟨step_of_halted_ne_none hs, State.tick_of_halted hs, stepOutputs_of_halted hs, tickOutputs_of_halted hs,
      fun _ => rfl, rfl⟩
  · by_contra hreset
    exact hs ((transact_keeps_halted hs (not_exists.mp hreset) h).symm.trans ht)

/-! ### Ticks (R210 to R212) -/

/-- Settles O50: the counts are those of one tick in a row. -/
theorem tickCountsDown : Obligations.TickCountsDown := by
  refine ⟨fun s hh => ?_, fun s hs => ⟨State.tick_of_halted hs, tickOutputs_of_halted hs⟩⟩
  obtain ⟨hframe, hDT, hST⟩ := State.ticks_spec 1 hh
  exact ⟨hDT, hST, hframe, tickOutputs_of_running hh⟩

theorem runSchedule_replicate_tick (p : Params) (n : Nat) (s : State) :
    runSchedule p (List.replicate n .tick) s = .next (State.ticks n s) := by
  induction n generalizing s with
  | zero => rfl
  | succ n ih => exact ih s.tick

/-- The one tick that finds ST = 1 is the one that takes it to 0 (R212). -/
theorem scheduleOutputs_replicate_tick (p : Params) (n : Nat) {s : State} (hh : s.halted = none) :
    scheduleOutputs p (List.replicate n .tick) s =
      if 1 ≤ s.ST.toNat ∧ s.ST.toNat ≤ n then [.toneEnd] else [] := by
  induction n generalizing s with
  | zero => exact (if_neg (by omega)).symm
  | succ n ih =>
    have htick := State.tick_of_running hh
    have hcons : scheduleOutputs p (List.replicate (n + 1) .tick) s =
        tickOutputs s ++ scheduleOutputs p (List.replicate n .tick) s.tick := rfl
    have hST : s.tick.ST.toNat = s.ST.toNat - 1 := by rw [htick]; exact countDown_toNat s.ST
    rw [hcons, ih (by rw [htick]; exact hh), tickOutputs_of_running hh, hST]
    by_cases h1 : s.ST = 1
    · have hone : s.ST.toNat = 1 := congrArg BitVec.toNat h1
      rw [if_pos h1, if_neg (by omega), if_pos (by omega)]
      rfl
    · have hone : s.ST.toNat ≠ 1 := fun h => h1 (BitVec.eq_of_toNat_eq h)
      rw [if_neg h1, List.nil_append]
      exact if_congr (by omega) rfl rfl

/-- Settles O51: the state after `n` ticks, and the one event of the tick that finds ST = 1. -/
theorem ticksAndToneEnd : Obligations.TicksAndToneEnd := by
  intro p n s hh
  obtain ⟨hframe, hDT, hST⟩ := State.ticks_spec n hh
  exact ⟨runSchedule_replicate_tick p n s, hDT, hST, hframe, scheduleOutputs_replicate_tick p n hh⟩

/-! ### The transactions that write one field (R215, R216) -/

/-- Settles O52: both transactions are one record update, and no event. -/
theorem inputTransactions : Obligations.InputTransactions := fun _ _ _ => ⟨rfl, rfl, rfl, rfl⟩

end Sys2Proof.Machine
end

