-- ==== Sys2Proof/Proofs/ResetAndHazards.lean ====
section
/-! PROOFS. The family 70_reset_and_hazards: the self-jump at which a run ends for the claims of the spec. -/

namespace Sys2Proof.Machine

/-! ### The self-jump (70_reset_and_hazards.md R236) -/

/-- A jump to its own address is a no-op: `pc` is all that a jump writes (R102). -/
theorem exec_jp_self {nnn : Imm12} {s : State} (h : zext16 nnn = s.pc) : exec (.jp nnn) s = .next s := by
  have hexec : exec (.jp nnn) s = .next { s with pc := zext16 nnn } := rfl
  rw [hexec, h]

/-- Settles O49: the step runs the jump that it fetches, and that jump goes to the `pc` it is at. -/
theorem selfJumpRepeats : Obligations.SelfJumpRepeats := by
  rintro s _ hh ⟨rfl, w, nnn, hf, hd, hself⟩
  rw [step_of_decoded hh hf hd, exec_jp_self hself]

end Sys2Proof.Machine
end
